-- ==== Sys2Proof/Word.lean ====
section
/-! DEFINITION. The two word types of the block (spec/00_scope.md R5, R7): a byte and a 16-bit word.
Everything a bit-field or a byte order could get wrong stands in Decode.lean, not here. -/

namespace Sys2Proof

/-- A byte: an unsigned value 0 to 255, bit 0 least significant (R7). -/
abbrev Byte := BitVec 8

/-- A 16-bit value, the width of PC and of an address (R5, R7). -/
abbrev Word := BitVec 16

end Sys2Proof
end

