-- ==== Sys2Proof/Syntax.lean ====
section
/-! DEFINITION. The instructions as syntax: spec/30_encoding.md R60 to R73 and spec/opcode_table.json.
A row of the table is a constructor of `Instr` (its mnemonic) at one addressing mode; where one mnemonic and
mode have several opcode bytes (NOP*, GAP, ANC, LAS) the constructor carries the opcode byte that names the row. -/

namespace Sys2Proof

/-- The thirteen addressing modes of R61. -/
inductive Mode where
  | implied | accumulator | immediate
  | zeroPage | zeroPageX | zeroPageY
  | absolute | absoluteX | absoluteY
  | indexedIndirect | indirectIndexed
  | relative | indirect
  deriving DecidableEq, Repr

/-- The operand of a resolved or inert instruction: the ten modes the resolver serves, each with the operand
bytes that follow the opcode (R61, R88 to R97). A 16-bit operand is held as its value, not as two bytes. -/
inductive Operand where
  /-- `A`, accumulator addressing. -/
  | acc
  /-- `#nn`. -/
  | imm (n : Byte)
  /-- `nn`, zero page. -/
  | zp (n : Byte)
  /-- `nn,X`. -/
  | zpx (n : Byte)
  /-- `nn,Y`. -/
  | zpy (n : Byte)
  /-- `nnnn`, absolute. -/
  | abs (w : Word)
  /-- `nnnn,X`. -/
  | absx (w : Word)
  /-- `nnnn,Y`. -/
  | absy (w : Word)
  /-- `(nn,X)`, indexed indirect. -/
  | indx (n : Byte)
  /-- `(nn),Y`, indirect indexed. -/
  | indy (n : Byte)
  deriving DecidableEq, Repr

/-- The operand of JMP: an absolute target or the address of a pointer (R61, R101, R102). -/
inductive JmpTarget where
  | abs (w : Word)
  | ind (w : Word)
  deriving DecidableEq, Repr

/-- The four decode classes of R66. -/
inductive OpClass where
  | direct | inert | resolved | gap
  deriving DecidableEq, Repr

/-- The instructions of spec/opcode_table.json, in the table's families. -/
inductive Instr where
  -- 42_control_flow.md
  | jmp (t : JmpTarget)
  | jsr (w : Word)
  | rts
  | rti
  | brk
  | bpl (r : Byte)
  | bmi (r : Byte)
  | bvc (r : Byte)
  | bvs (r : Byte)
  | bcc (r : Byte)
  | bcs (r : Byte)
  | bne (r : Byte)
  | beq (r : Byte)
  -- 43_implied.md
  | tax
  | txa
  | tay
  | tya
  | tsx
  | txs
  | clc
  | sec
  | cli
  | sei
  | clv
  | cld
  | sed
  | pha
  | php
  | pla
  | plp
  | inx
  | iny
  | dex
  | dey
  | nop
  /-- `NOP*`: `op` is the opcode byte of one of the 27 rows of R69; no operand for the implied rows. -/
  | nopInert (op : Byte) (arg : Option Operand)
  -- 44_group01.md
  | ora (o : Operand)
  | and (o : Operand)
  | eor (o : Operand)
  | adc (o : Operand)
  | sta (o : Operand)
  | lda (o : Operand)
  | cmp (o : Operand)
  | sbc (o : Operand)
  -- 45_group10_00.md
  | asl (o : Operand)
  | rol (o : Operand)
  | lsr (o : Operand)
  | ror (o : Operand)
  | stx (o : Operand)
  | ldx (o : Operand)
  | dec (o : Operand)
  | inc (o : Operand)
  | bit (o : Operand)
  | sty (o : Operand)
  | ldy (o : Operand)
  | cpy (o : Operand)
  | cpx (o : Operand)
  -- 46_group11.md
  | sax (o : Operand)
  /-- Tag ANC: `op` is the opcode byte, since `aaa = 000` and `aaa = 001` both carry the tag (R166). -/
  | anc (op : Byte) (o : Operand)
  | alr (o : Operand)
  | arr (o : Operand)
  /-- Tag LAS: `op` is the opcode byte, since 0xBB and 0xBF are both `abs,Y` (R64, R169). -/
  | las (op : Byte) (o : Operand)
  | axs (o : Operand)
  /-- The undocumented SBC of group 11, a no-op (R171). -/
  | sbcUndoc (o : Operand)
  -- 40_fetch_dispatch.md R81
  /-- A decode gap: `op` is one of the eight opcode bytes of R70. -/
  | gap (op : Byte)
  deriving DecidableEq, Repr

end Sys2Proof
end

