-- ==== Sys2Proof/WellFormed.lean ====
section
/-! DEFINITION. Which terms of `Instr` are rows of spec/opcode_table.json: the modes each mnemonic has, as the
instruction rules R142 to R171 list its encodings, and the opcode bytes of the rows that carry one. -/

namespace Sys2Proof

/-- The mode of an operand (R61). -/
def Operand.mode : Operand → Mode
  | .acc    => .accumulator
  | .imm _  => .immediate
  | .zp _   => .zeroPage
  | .zpx _  => .zeroPageX
  | .zpy _  => .zeroPageY
  | .abs _  => .absolute
  | .absx _ => .absoluteX
  | .absy _ => .absoluteY
  | .indx _ => .indexedIndirect
  | .indy _ => .indirectIndexed

/-- The eight modes of group 01 (R142), which the no-op tags of group 11 share. -/
def group01Modes : List Mode :=
  [.indexedIndirect, .zeroPage, .immediate, .absolute, .indirectIndexed, .zeroPageX, .absoluteY, .absoluteX]

/-- The six modes of ASL, ROL, LSR and ROR: R150 to R153, and the immediate cell that always faults (R71). -/
def shiftModes : List Mode :=
  [.immediate, .zeroPage, .accumulator, .absolute, .zeroPageX, .absoluteX]

/-- The four modes of INC and DEC (R156, R157). -/
def incDecModes : List Mode := [.zeroPage, .absolute, .zeroPageX, .absoluteX]

/-- The three modes of CPX and CPY (R161, R162). -/
def compareIndexModes : List Mode := [.immediate, .zeroPage, .absolute]

/-- The 27 inert rows: opcode byte and mode (R69). -/
def inertRows : List (Byte × Mode) :=
  [(0x1A, .implied), (0x3A, .implied), (0x5A, .implied), (0x7A, .implied), (0xDA, .implied), (0xFA, .implied)] ++
  [(0x80, .immediate), (0x82, .immediate), (0x89, .immediate), (0xC2, .immediate), (0xE2, .immediate)] ++
  [(0x04, .zeroPage), (0x44, .zeroPage), (0x64, .zeroPage)] ++
  [(0x14, .zeroPageX), (0x34, .zeroPageX), (0x54, .zeroPageX), (0x74, .zeroPageX), (0xD4, .zeroPageX), (0xF4, .zeroPageX)] ++
  [(0x0C, .absolute)] ++
  [(0x1C, .absoluteX), (0x3C, .absoluteX), (0x5C, .absoluteX), (0x7C, .absoluteX), (0xDC, .absoluteX), (0xFC, .absoluteX)]

/-- The 16 rows of the tag ANC (R166). -/
def ancRows : List (Byte × Mode) :=
  [(0x03, .indexedIndirect), (0x07, .zeroPage), (0x0B, .immediate), (0x0F, .absolute)] ++
  [(0x13, .indirectIndexed), (0x17, .zeroPageX), (0x1B, .absoluteY), (0x1F, .absoluteX)] ++
  [(0x23, .indexedIndirect), (0x27, .zeroPage), (0x2B, .immediate), (0x2F, .absolute)] ++
  [(0x33, .indirectIndexed), (0x37, .zeroPageX), (0x3B, .absoluteY), (0x3F, .absoluteX)]

/-- The 8 rows of the tag LAS (R169). -/
def lasRows : List (Byte × Mode) :=
  [(0xA3, .indexedIndirect), (0xA7, .zeroPage), (0xAB, .immediate), (0xAF, .absolute)] ++
  [(0xB3, .indirectIndexed), (0xB7, .zeroPageY), (0xBB, .absoluteY), (0xBF, .absoluteY)]

/-- The 8 decode gaps (R70). -/
def gapRows : List Byte := [0x12, 0x32, 0x52, 0x72, 0x92, 0xB2, 0xD2, 0xF2]

/-- The mode of an optional operand: none is implied addressing. -/
def argMode : Option Operand → Mode
  | none   => .implied
  | some o => o.mode

/-- The term is a row of the opcode table. -/
def Instr.WellFormed : Instr → Bool
  | .ora o | .and o | .eor o | .adc o | .lda o | .cmp o | .sbc o => group01Modes.contains o.mode
  | .sta o => o.mode != .immediate && group01Modes.contains o.mode
  | .asl o | .rol o | .lsr o | .ror o => shiftModes.contains o.mode
  | .stx o => [Mode.zeroPage, .absolute, .zeroPageY, .absoluteX].contains o.mode
  | .ldx o => [Mode.immediate, .zeroPage, .absolute, .zeroPageY, .absoluteY].contains o.mode
  | .dec o | .inc o => incDecModes.contains o.mode
  | .bit o => [Mode.zeroPage, .absolute].contains o.mode
  | .sty o => [Mode.zeroPage, .absolute, .zeroPageX, .absoluteX].contains o.mode
  | .ldy o => [Mode.immediate, .zeroPage, .absolute, .zeroPageX, .absoluteX].contains o.mode
  | .cpy o | .cpx o => compareIndexModes.contains o.mode
  | .sax o =>
    [Mode.indexedIndirect, .zeroPage, .immediate, .absolute, .indirectIndexed, .zeroPageY, .absoluteY, .absoluteX].contains
      o.mode
  | .alr o | .arr o | .axs o | .sbcUndoc o => group01Modes.contains o.mode
  | .anc op o => ancRows.contains (op, o.mode)
  | .las op o => lasRows.contains (op, o.mode)
  | .nopInert op arg => inertRows.contains (op, argMode arg)
  | .gap op => gapRows.contains op
  | .jmp _ | .jsr _ | .rts | .rti | .brk
  | .bpl _ | .bmi _ | .bvc _ | .bvs _ | .bcc _ | .bcs _ | .bne _ | .beq _
  | .tax | .txa | .tay | .tya | .tsx | .txs
  | .clc | .sec | .cli | .sei | .clv | .cld | .sed
  | .pha | .php | .pla | .plp | .inx | .iny | .dex | .dey | .nop => true

end Sys2Proof
end

