-- ==== Sys2Proof/Decode.lean ====
section
/-! DEFINITION. The decoder of spec/30_encoding.md (fields, resolver mode table, operation selection, decode
classes), total on any bytes, and the encoder written from the same tables; with the byte-order and bit-field
helpers of spec/00_scope.md R7. -/

namespace Sys2Proof

/-! ## Bit-field helpers (R7) -/

/-- `lo(w) = w[7:0]`. -/
def lo (w : Word) : Byte := w.extractLsb' 0 8

/-- `hi(w) = w[15:8]`, the page of an address. -/
def hi (w : Word) : Byte := w.extractLsb' 8 8

/-- `word(h, l) = (h << 8) | l`. -/
def word (h l : Byte) : Word := h.setWidth 16 <<< 8 ||| l.setWidth 16

/-- `zext_16(b)`: the byte read as 0 to 255. -/
def zext16 (b : Byte) : Word := b.setWidth 16

/-- `sext_16(b)`: the byte read as -128 to 127. -/
def sext16 (b : Byte) : Word := b.signExtend 16

/-! ## Lengths (R61, R62) -/

/-- Instruction length in bytes of a mode (R61). -/
def Mode.len : Mode → Nat
  | .implied | .accumulator => 1
  | .immediate | .zeroPage | .zeroPageX | .zeroPageY | .indexedIndirect | .indirectIndexed | .relative => 2
  | .absolute | .absoluteX | .absoluteY | .indirect => 3

/-- The mode of an instruction (R61, R67). BRK is one byte in the opcode map (R106). -/
def Instr.mode : Instr → Mode
  | .jmp (.abs _) => .absolute
  | .jmp (.ind _) => .indirect
  | .jsr _ => .absolute
  | .bpl _ | .bmi _ | .bvc _ | .bvs _ | .bcc _ | .bcs _ | .bne _ | .beq _ => .relative
  | .rts | .rti | .brk
  | .tax | .txa | .tay | .tya | .tsx | .txs
  | .clc | .sec | .cli | .sei | .clv | .cld | .sed
  | .pha | .php | .pla | .plp | .inx | .iny | .dex | .dey | .nop
  | .gap _ => .implied
  | .nopInert _ arg => argMode arg
  | .ora o | .and o | .eor o | .adc o | .sta o | .lda o | .cmp o | .sbc o
  | .asl o | .rol o | .lsr o | .ror o | .stx o | .ldx o | .dec o | .inc o
  | .bit o | .sty o | .ldy o | .cpy o | .cpx o
  | .sax o | .anc _ o | .alr o | .arr o | .las _ o | .axs o | .sbcUndoc o => o.mode

/-- Instruction length in bytes. -/
def Instr.length (i : Instr) : Nat := i.mode.len

/-! ## Opcode fields (R60) -/

/-- `aaa = op[7:5]`. -/
def aaaOf (op : Byte) : BitVec 3 := op.extractLsb' 5 3

/-- `bbb = op[4:2]`. -/
def bbbOf (op : Byte) : BitVec 3 := op.extractLsb' 2 3

/-- `cc = op[1:0]`. -/
def ccOf (op : Byte) : BitVec 2 := op.extractLsb' 0 2

/-! ## The decoder -/

/-- Class 1: the 36 direct opcodes (R67, R68) with their operand bytes. -/
def directInstr (op b1 b2 : Byte) : Option Instr :=
  match op.toNat with
  | 0x4C => some (.jmp (.abs (word b2 b1)))
  | 0x6C => some (.jmp (.ind (word b2 b1)))
  | 0x20 => some (.jsr (word b2 b1))
  | 0x60 => some .rts
  | 0x40 => some .rti
  | 0x00 => some .brk
  | 0xAA => some .tax
  | 0x8A => some .txa
  | 0xA8 => some .tay
  | 0x98 => some .tya
  | 0xBA => some .tsx
  | 0x9A => some .txs
  | 0x18 => some .clc
  | 0x38 => some .sec
  | 0x58 => some .cli
  | 0x78 => some .sei
  | 0xB8 => some .clv
  | 0xD8 => some .cld
  | 0xF8 => some .sed
  | 0x48 => some .pha
  | 0x68 => some .pla
  | 0x08 => some .php
  | 0x28 => some .plp
  | 0xE8 => some .inx
  | 0xC8 => some .iny
  | 0xCA => some .dex
  | 0x88 => some .dey
  | 0x10 => some (.bpl b1)
  | 0x30 => some (.bmi b1)
  | 0x50 => some (.bvc b1)
  | 0x70 => some (.bvs b1)
  | 0x90 => some (.bcc b1)
  | 0xB0 => some (.bcs b1)
  | 0xD0 => some (.bne b1)
  | 0xF0 => some (.beq b1)
  | 0xEA => some .nop
  | _ => none

/-- Class 2: the mode of an inert opcode (R69). -/
def inertMode (op : Byte) : Option Mode :=
  match op.toNat with
  | 0x1A | 0x3A | 0x5A | 0x7A | 0xDA | 0xFA => some .implied
  | 0x80 | 0x82 | 0x89 | 0xC2 | 0xE2 => some .immediate
  | 0x04 | 0x44 | 0x64 => some .zeroPage
  | 0x14 | 0x34 | 0x54 | 0x74 | 0xD4 | 0xF4 => some .zeroPageX
  | 0x0C => some .absolute
  | 0x1C | 0x3C | 0x5C | 0x7C | 0xDC | 0xFC => some .absoluteX
  | _ => none

/-- The resolver's mode table before the Y override; `none` is a cell marked NA (R63). -/
def cellMode (bbb : BitVec 3) (cc : BitVec 2) : Option Mode :=
  match bbb.toNat, cc.toNat with
  | 0, 0 | 0, 2 => some .immediate
  | 0, _ => some .indexedIndirect
  | 1, _ => some .zeroPage
  | 2, 0 => none
  | 2, 2 => some .accumulator
  | 2, _ => some .immediate
  | 3, _ => some .absolute
  | 4, 0 | 4, 2 => none
  | 4, _ => some .indirectIndexed
  | 5, _ => some .zeroPageX
  | 6, 0 | 6, 2 => none
  | 6, _ => some .absoluteY
  | _, _ => some .absoluteX

/-- The opcodes whose indexed mode takes Y instead of X: `op[7:1]` is one of three patterns (R64). -/
def yOverride (op : Byte) : Bool :=
  [0b1001011#7, 0b1011011#7, 0b1011111#7].contains (op.extractLsb' 1 7)

/-- The resolver's mode of an opcode byte, with the Y override; `none` is "not applicable" (R63, R64). -/
def resolverMode (op : Byte) : Option Mode :=
  match cellMode (bbbOf op) (ccOf op) with
  | some .zeroPageX => some (if yOverride op then .zeroPageY else .zeroPageX)
  | some .absoluteX => some (if yOverride op then .absoluteY else .absoluteX)
  | m => m

/-- The operand a mode takes from the two bytes after the opcode, little-endian (R61, R43).
`none` for the modes without one (implied) and for the two modes only direct opcodes have. -/
def operandOf (m : Mode) (b1 b2 : Byte) : Option Operand :=
  match m with
  | .accumulator     => some .acc
  | .immediate       => some (.imm b1)
  | .zeroPage        => some (.zp b1)
  | .zeroPageX       => some (.zpx b1)
  | .zeroPageY       => some (.zpy b1)
  | .absolute        => some (.abs (word b2 b1))
  | .absoluteX       => some (.absx (word b2 b1))
  | .absoluteY       => some (.absy (word b2 b1))
  | .indexedIndirect => some (.indx b1)
  | .indirectIndexed => some (.indy b1)
  | .implied | .relative | .indirect => none

/-- Operation selection by `cc` and `aaa` (R65); `none` is a group-00 cell without an operation. -/
def operation (op : Byte) (o : Operand) : Option Instr :=
  match (ccOf op).toNat, (aaaOf op).toNat with
  | 0, 1 => some (.bit o)
  | 0, 4 => some (.sty o)
  | 0, 5 => some (.ldy o)
  | 0, 6 => some (.cpy o)
  | 0, 7 => some (.cpx o)
  | 0, _ => none
  | 1, 0 => some (.ora o)
  | 1, 1 => some (.and o)
  | 1, 2 => some (.eor o)
  | 1, 3 => some (.adc o)
  | 1, 4 => some (.sta o)
  | 1, 5 => some (.lda o)
  | 1, 6 => some (.cmp o)
  | 1, _ => some (.sbc o)
  | 2, 0 => some (.asl o)
  | 2, 1 => some (.rol o)
  | 2, 2 => some (.lsr o)
  | 2, 3 => some (.ror o)
  | 2, 4 => some (.stx o)
  | 2, 5 => some (.ldx o)
  | 2, 6 => some (.dec o)
  | 2, _ => some (.inc o)
  | _, 0 => some (.anc op o)
  | _, 1 => some (.anc op o)
  | _, 2 => some (.alr o)
  | _, 3 => some (.arr o)
  | _, 4 => some (.sax o)
  | _, 5 => some (.las op o)
  | _, 6 => some (.axs o)
  | _, _ => some (.sbcUndoc o)

/-- Class 3: a resolved opcode, its operand from the resolver's mode and its operation from R65. -/
def resolvedInstr (op b1 b2 : Byte) : Option Instr :=
  (resolverMode op).bind fun m => (operandOf m b1 b2).bind (operation op)

/-- The instruction of an opcode byte and the two bytes after it: the four classes in the order of R66.
It is total: every opcode byte has exactly one entry (R72, R74). Bytes the instruction does not have are ignored. -/
def decodeInstr (op b1 b2 : Byte) : Instr :=
  match directInstr op b1 b2 with
  | some i => i
  | none =>
    match inertMode op with
    | some m => .nopInert op (operandOf m b1 b2)
    | none => (resolvedInstr op b1 b2).getD (.gap op)

/-- The decode class of an opcode byte (R66). -/
def classOf (op : Byte) : OpClass :=
  if (directInstr op 0 0).isSome then .direct
  else if (inertMode op).isSome then .inert
  else if (resolverMode op).isSome then .resolved
  else .gap

/-- The length of the instruction an opcode byte begins, a function of that byte alone (R62). -/
def opcodeLength (op : Byte) : Nat := (decodeInstr op 0 0).length

/-- Why a byte list has no instruction at its head. No opcode byte is rejected (R74): only missing bytes are. -/
inductive DecodeError where
  /-- There is no opcode byte. -/
  | noBytes
  /-- The operand bytes of the opcode `op` are missing. -/
  | truncated (op : Byte)
  deriving DecidableEq, Repr

/-- Decode the instruction at the head of a byte list, and give back the rest of the list. -/
def decode : List Byte → Except DecodeError (Instr × List Byte)
  | [] => .error .noBytes
  | op :: rest =>
    match opcodeLength op, rest with
    | 1, rest => .ok (decodeInstr op 0 0, rest)
    | 2, b1 :: rest => .ok (decodeInstr op b1 0, rest)
    | 3, b1 :: b2 :: rest => .ok (decodeInstr op b1 b2, rest)
    | _, _ => .error (.truncated op)

/-! ## The encoder -/

/-- An opcode byte from its fields `aaa bbb cc` (R60). -/
def opcodeByte (aaa bbb : BitVec 3) (cc : BitVec 2) : Byte :=
  aaa.setWidth 8 <<< 5 ||| bbb.setWidth 8 <<< 2 ||| cc.setWidth 8

/-- The `bbb` cell of a mode in groups 01 and 11, with the Y override's cells (R63, R64). -/
def oddCell : Mode → BitVec 3
  | .indexedIndirect => 0b000
  | .zeroPage => 0b001
  | .immediate => 0b010
  | .absolute => 0b011
  | .indirectIndexed => 0b100
  | .zeroPageX | .zeroPageY => 0b101
  | .absoluteY => 0b110
  | _ => 0b111

/-- The `bbb` cell of a mode in groups 00 and 10, with the Y override's cells (R63, R64). -/
def evenCell : Mode → BitVec 3
  | .immediate => 0b000
  | .zeroPage => 0b001
  | .accumulator => 0b010
  | .absolute => 0b011
  | .zeroPageX | .zeroPageY => 0b101
  | _ => 0b111

/-- The opcode byte of an instruction, from the encodings its rule lists (R67, R69, R70, R142 to R171). -/
def Instr.opcode : Instr → Byte
  | .jmp (.abs _) => 0x4C
  | .jmp (.ind _) => 0x6C
  | .jsr _ => 0x20
  | .rts => 0x60
  | .rti => 0x40
  | .brk => 0x00
  | .bpl _ => 0x10
  | .bmi _ => 0x30
  | .bvc _ => 0x50
  | .bvs _ => 0x70
  | .bcc _ => 0x90
  | .bcs _ => 0xB0
  | .bne _ => 0xD0
  | .beq _ => 0xF0
  | .tax => 0xAA
  | .txa => 0x8A
  | .tay => 0xA8
  | .tya => 0x98
  | .tsx => 0xBA
  | .txs => 0x9A
  | .clc => 0x18
  | .sec => 0x38
  | .cli => 0x58
  | .sei => 0x78
  | .clv => 0xB8
  | .cld => 0xD8
  | .sed => 0xF8
  | .pha => 0x48
  | .php => 0x08
  | .pla => 0x68
  | .plp => 0x28
  | .inx => 0xE8
  | .iny => 0xC8
  | .dex => 0xCA
  | .dey => 0x88
  | .nop => 0xEA
  | .nopInert op _ => op
  | .ora o => opcodeByte 0b000 (oddCell o.mode) 0b01
  | .and o => opcodeByte 0b001 (oddCell o.mode) 0b01
  | .eor o => opcodeByte 0b010 (oddCell o.mode) 0b01
  | .adc o => opcodeByte 0b011 (oddCell o.mode) 0b01
  | .sta o => opcodeByte 0b100 (oddCell o.mode) 0b01
  | .lda o => opcodeByte 0b101 (oddCell o.mode) 0b01
  | .cmp o => opcodeByte 0b110 (oddCell o.mode) 0b01
  | .sbc o => opcodeByte 0b111 (oddCell o.mode) 0b01
  | .asl o => opcodeByte 0b000 (evenCell o.mode) 0b10
  | .rol o => opcodeByte 0b001 (evenCell o.mode) 0b10
  | .lsr o => opcodeByte 0b010 (evenCell o.mode) 0b10
  | .ror o => opcodeByte 0b011 (evenCell o.mode) 0b10
  | .stx o => opcodeByte 0b100 (evenCell o.mode) 0b10
  | .ldx o => opcodeByte 0b101 (evenCell o.mode) 0b10
  | .dec o => opcodeByte 0b110 (evenCell o.mode) 0b10
  | .inc o => opcodeByte 0b111 (evenCell o.mode) 0b10
  | .bit o => opcodeByte 0b001 (evenCell o.mode) 0b00
  | .sty o => opcodeByte 0b100 (evenCell o.mode) 0b00
  | .ldy o => opcodeByte 0b101 (evenCell o.mode) 0b00
  | .cpy o => opcodeByte 0b110 (evenCell o.mode) 0b00
  | .cpx o => opcodeByte 0b111 (evenCell o.mode) 0b00
  | .sax o => opcodeByte 0b100 (oddCell o.mode) 0b11
  | .anc op _ => op
  | .alr o => opcodeByte 0b010 (oddCell o.mode) 0b11
  | .arr o => opcodeByte 0b011 (oddCell o.mode) 0b11
  | .las op _ => op
  | .axs o => opcodeByte 0b110 (oddCell o.mode) 0b11
  | .sbcUndoc o => opcodeByte 0b111 (oddCell o.mode) 0b11
  | .gap op => op

/-- The two bytes of a 16-bit operand, low byte first (R61, R43). -/
def wordBytes (w : Word) : List Byte := [lo w, hi w]

/-- The bytes an operand stores after the opcode (R61). -/
def Operand.bytes : Operand → List Byte
  | .acc => []
  | .imm n | .zp n | .zpx n | .zpy n | .indx n | .indy n => [n]
  | .abs w | .absx w | .absy w => wordBytes w

/-- The bytes an instruction stores after its opcode (R61). -/
def Instr.operandBytes : Instr → List Byte
  | .jmp (.abs w) | .jmp (.ind w) | .jsr w => wordBytes w
  | .bpl r | .bmi r | .bvc r | .bvs r | .bcc r | .bcs r | .bne r | .beq r => [r]
  | .rts | .rti | .brk
  | .tax | .txa | .tay | .tya | .tsx | .txs
  | .clc | .sec | .cli | .sei | .clv | .cld | .sed
  | .pha | .php | .pla | .plp | .inx | .iny | .dex | .dey | .nop
  | .gap _ => []
  | .nopInert _ none => []
  | .nopInert _ (some o)
  | .ora o | .and o | .eor o | .adc o | .sta o | .lda o | .cmp o | .sbc o
  | .asl o | .rol o | .lsr o | .ror o | .stx o | .ldx o | .dec o | .inc o
  | .bit o | .sty o | .ldy o | .cpy o | .cpx o
  | .sax o | .anc _ o | .alr o | .arr o | .las _ o | .axs o | .sbcUndoc o => o.bytes

/-- The bytes of an instruction, opcode first. -/
def encode (i : Instr) : List Byte := i.opcode :: i.operandBytes

/-! ## The words of spec/opcode_table.json -/

/-- Byte `k` of an instruction given as one number of `nbits` bits, bit 0 the least significant bit of the
first byte; the bits above `nbits` are 0. -/
def tableByte (nbits w k : Nat) : Byte := BitVec.ofNat 8 (w % 2 ^ nbits / 2 ^ (8 * k))

/-- The instruction the decoder reads from a word of the opcode table: its bytes laid out first byte first,
followed by zero bytes up to the longest instruction (three bytes). -/
def decodeTableWord (nbits w : Nat) : Option Instr :=
  match decode [tableByte nbits w 0, tableByte nbits w 1, tableByte nbits w 2] with
  | .ok (i, _) => some i
  | .error _ => none

end Sys2Proof
end

