-- ==== Sys2Proof/Config.lean ====
section
/-! DEFINITION. The construction parameters of spec/00_scope.md R6 and spec/70_reset_and_hazards.md R191,
and the values this model names for those the spec leaves OPEN (spec/92_eei_decisions.md D21). -/

namespace Sys2Proof.Config

/-- The number of RAM bytes, addresses 0x0000 to 0x7FFF (R5, R36). -/
abbrev ramSize : Nat := 0x8000

/-- The named parameters `construct` takes (R6, R191).
`CYCLE_TABLE` and `GAP_CYCLES` are arguments of Machine/Timing.lean, since no state depends on them (R200). -/
structure Params where
  /-- `PRG`: the decoded PRG-ROM image, a byte list of length `L`; `construct` refuses the empty one (R177). -/
  prg     : List Byte
  /-- `RAM_INIT`: the 32,768 bytes of RAM at construction. -/
  ramInit : Vector Byte ramSize
  /-- `A0`. -/
  a0      : Byte
  /-- `X0`. -/
  x0      : Byte
  /-- `Y0`. -/
  y0      : Byte
  /-- `SP0`: "SP initialized by caller". -/
  sp0     : Byte
  /-- `P0`: bit 5 is forced to 1 when it is stored. -/
  p0      : Byte
  /-- `PC0`: a PC set by the host in place of the reset vector. -/
  pc0     : Option Word
  /-- `TRACE`: the trace enable, without architectural effect (R49). -/
  trace   : Bool
  deriving DecidableEq, Repr

/-- DESIGN CHOICE (notes/assumptions/1.md): the value named for the OPEN parameter `A0`. -/
def a0 : Byte := 0x00
/-- DESIGN CHOICE (notes/assumptions/1.md): the value named for the OPEN parameter `X0`. -/
def x0 : Byte := 0x00
/-- DESIGN CHOICE (notes/assumptions/1.md): the value named for the OPEN parameter `Y0`. -/
def y0 : Byte := 0x00
/-- DESIGN CHOICE (notes/assumptions/2.md): the value named for the caller's parameter `SP0`. -/
def sp0 : Byte := 0xFD
/-- DESIGN CHOICE (notes/assumptions/3.md): the value named for the OPEN parameter `P0`. -/
def p0 : Byte := 0x24
/-- DESIGN CHOICE (notes/assumptions/4.md): the length of the PRG-ROM image at `State.reset`. -/
def prgLen0 : Nat := 0x8000
/-- DESIGN CHOICE (notes/assumptions/6.md): tracing is off at `State.reset`. -/
def trace0 : Bool := false

/-- The parameters that `State.reset` is the construction from: the named values, an image of zero bytes
(notes/assumptions/4.md), RAM of zero bytes (notes/assumptions/5.md) and no `PC0`. -/
def resetParams : Params where
  prg     := List.replicate prgLen0 0
  ramInit := Vector.replicate ramSize 0
  a0      := a0
  x0      := x0
  y0      := y0
  sp0     := sp0
  p0      := p0
  pc0     := none
  trace   := trace0

end Sys2Proof.Config
end

