-- ==== Sys2Proof/Machine/State.lean ====
section
/-! DEFINITION. What the block holds (spec/10_state.md, spec/20_memory.md R36), the two ways a step can stop
(spec/60_exceptions.md R173, R174), the refusals, and the state after construction (R34, R191). -/

namespace Sys2Proof.Machine

/-- A byte store: (address, byte) pairs in one canonical form, addresses strictly rising and no entry equal to
what an unlisted address reads as (Machine/Ops.lean `Memory.read`, `Memory.wf`). -/
abbrev Memory := List Host.Cell

/-- The state of the block. No operand, location or opcode of a step is state (R33), and nothing is pending
between steps (R32). -/
structure State where
  /-- `A`, the accumulator (R12). -/
  a      : Byte
  /-- `X`, an index register (R13). -/
  x      : Byte
  /-- `Y`, an index register (R14). -/
  y      : Byte
  /-- `SP`, the stack pointer: the low byte of a stack address in page 1 (R15). -/
  sp     : Byte
  /-- `PC`, the program counter: between steps the address of the next opcode byte (R16). -/
  pc     : Word
  /-- `P`, the status register, bits 7 to 0 = N V U B D I Z C (R20). -/
  p      : Byte
  /-- RAM, addresses 0x0000 to 0x7FFF (R36). -/
  ram    : Memory
  /-- The PRG-ROM image, keyed by offset 0 to `prgLen` - 1 (R36, R38). -/
  prg    : Memory
  /-- `L`, the length of the PRG-ROM image (R6, R32). -/
  prgLen : Nat
  /-- `TRACE`, the trace enable (R32, R49). -/
  trace  : Bool
  deriving DecidableEq, Repr

/-- The fatal exceptions of the block (R10, R175). The state after one is not defined (R176), so none is kept. -/
inductive Fault where
  /-- `Fatal(ConstantWrite, Const(i))`: a write to an immediate operand's location. Raised by the five opcodes
  0x02, 0x22, 0x42, 0x62 and 0x8B on every execution (R173). The spec's own outcome; safe. -/
  | constantWrite (i : Byte)
  /-- `Fatal(RomWrite, Mem(a))`: a write to an address 0x8000 to 0xFFFF. Raised by STA, STX, STY, SAX and the
  memory forms of ASL, ROL, LSR, ROR, INC and DEC (R174). The spec's own outcome; safe. -/
  | romWrite (a : Word)
  deriving DecidableEq, Repr

/-- Why the model gives no meaning. No meaning and no step answers with one: `step` is total (R84). -/
inductive Refusal where
  /-- An instruction without a meaning, by its mnemonic in spec/opcode_table.json; raised by no arm. Safe. -/
  | notModelled (mnemonic : String)
  /-- Construction with a PRG-ROM image of length 0, raised by `construct` (R177). Safe. -/
  | emptyImage
  /-- A host call on a block whose last step was fatal, raised by `Block.step` (R85, I7). Safe. -/
  | afterFatal
  /-- A host call on a block that has been torn down, raised by `Block.step` (R195). Safe. -/
  | tornDown
  deriving DecidableEq, Repr

/-- The block right after construction with `Config.resetParams`, no host-given PC: `A0`, `X0`, `Y0`, `SP0`,
`P0 | 0x20` (R191), RAM and image of zero bytes, so PC is the reset vector 0x0000 those bytes hold.
DESIGN CHOICE for every OPEN parameter: notes/assumptions/1.md to 6.md. -/
def State.reset : State where
  a      := Config.a0
  x      := Config.x0
  y      := Config.y0
  sp     := Config.sp0
  pc     := 0x0000
  p      := Config.p0 ||| 0x20
  ram    := []
  prg    := []
  prgLen := Config.prgLen0
  trace  := Config.trace0

end Sys2Proof.Machine
end

