-- ==== Sys2Proof/Machine/Flags.lean ====
section
/-! DEFINITION. The status flags (spec/10_state.md R20 to R30) and the ALU cores (spec/44_group01.md R139 to
R141, spec/45_group10_00.md R150 to R153), on bytes. -/

namespace Sys2Proof.Machine

/-- The eight flags of P (R20). -/
inductive Flag where
  | C | Z | I | D | B | U | V | N
  deriving DecidableEq, Repr

/-- The bit of P a flag is (R20). -/
def Flag.bit : Flag → Nat
  | .C => 0
  | .Z => 1
  | .I => 2
  | .D => 3
  | .B => 4
  | .U => 5
  | .V => 6
  | .N => 7

/-- The mask of a flag in P. -/
def Flag.mask (f : Flag) : Byte := BitVec.twoPow 8 f.bit

/-- The getter of a flag: `P[k]` (R23). -/
def getFlag (f : Flag) (p : Byte) : Bool := p.getLsbD f.bit

/-- Bits 0x20 of P: Unused, always 1 (R21). -/
def unusedMask : Byte := 0x20

/-- Bit 0x10 of P: Break (R28). -/
def breakMask : Byte := 0x10

/-- The setter of a flag: bit `k` becomes `b`, the other bits stay; setting U forces it to 1 (R23). -/
def setFlag (f : Flag) (b : Bool) (p : Byte) : Byte :=
  if b || f == .U then p ||| f.mask else p &&& ~~~f.mask

/-- Z and N from a result: `Z := (r = 0)`, `N := r[7]` (R17, R25, R30). -/
def setZN (r : Byte) (p : Byte) : Byte := setFlag .N (r.getLsbD 7) (setFlag .Z (r == 0) p)

/-- The byte a write of the whole of P stores: `v | 0x20` (R22). -/
def statusValue (v : Byte) : Byte := v ||| unusedMask

/-- The byte PLP and RTI write to P, before `statusValue`: the pulled byte with Break cleared (R132, R105). -/
def pulledStatus (v : Byte) : Byte := v &&& ~~~breakMask

/-- Result and flags of an ALU core. -/
structure AluOut where
  r : Byte
  c : Bool
  v : Bool
  deriving DecidableEq, Repr

/-- `ALU_ADD(a, m, c)` (R139). Decimal mode does not exist (R27). -/
def aluAdd (a m : Byte) (c : Bool) : AluOut :=
  let sum := a.toNat + m.toNat + c.toNat
  let r := BitVec.ofNat 8 sum
  { r := r
    c := decide (sum > 0xFF)
    v := (a ^^^ m) &&& 0x80 == 0 && (m ^^^ r) &&& 0x80 != 0 }

/-- `ALU_SUB(a, m, c)` (R140): `diff = a - m - (1 - c)` on unbounded integers. -/
def aluSub (a m : Byte) (c : Bool) : AluOut :=
  let diff : Int := (a.toNat : Int) - m.toNat - (1 - c.toNat)
  let r := BitVec.ofInt 8 diff
  { r := r
    c := decide (diff ≥ 0)
    v := (a ^^^ m) &&& 0x80 != 0 && (a ^^^ r) &&& 0x80 != 0 }

/-- The flags of `ALU_CMP(reg, m)` written into P: C, Z and N from the unsigned difference (R141, conflict C5). -/
def setCmp (reg m : Byte) (p : Byte) : Byte :=
  let diff : Int := (reg.toNat : Int) - m.toNat
  setZN (BitVec.ofInt 8 diff) (setFlag .C (decide (diff ≥ 0)) p)

/-- Result of a shift or rotate and the bit shifted out. -/
structure ShiftOut where
  r : Byte
  c : Bool
  deriving DecidableEq, Repr

/-- ASL: `r = (m << 1) mod 2^8`, carry from bit 7 (R150). -/
def shiftAsl (m : Byte) : ShiftOut := { r := m <<< 1, c := m.getLsbD 7 }

/-- ROL: the old carry into bit 0, carry from bit 7 (R151). -/
def shiftRol (m : Byte) (c : Bool) : ShiftOut :=
  { r := m <<< 1 ||| (BitVec.ofBool c).setWidth 8, c := m.getLsbD 7 }

/-- LSR: `r = m >> 1`, carry from bit 0 (R152). -/
def shiftLsr (m : Byte) : ShiftOut := { r := m >>> 1, c := m.getLsbD 0 }

/-- ROR: the old carry into bit 7, carry from bit 0 (R153). -/
def shiftRor (m : Byte) (c : Bool) : ShiftOut :=
  { r := m >>> 1 ||| (BitVec.ofBool c).setWidth 8 <<< 7, c := m.getLsbD 0 }

/-- The flags of a shift written into P: C from the bit shifted out, Z and N from the result (R150 to R153). -/
def setShift (o : ShiftOut) (p : Byte) : Byte := setZN o.r (setFlag .C o.c p)

/-- The flags of BIT written into P: Z from `A AND m`, N and V from bits 7 and 6 of the operand (R158). -/
def setBit (a m : Byte) (p : Byte) : Byte :=
  setFlag .V (m.getLsbD 6) (setFlag .N (m.getLsbD 7) (setFlag .Z (a &&& m == 0) p))

end Sys2Proof.Machine
end

