-- ==== Sys2Proof/Machine/Ops.lean ====
section
/-! DEFINITION. The named operations over memory and registers: the byte store, the memory router
(spec/20_memory.md R35 to R45), the register write ports (spec/10_state.md R15 to R23), the stack (R46, R47),
taking BRK's trap (R106, R181) and returning from it (R105, R182). -/

namespace Sys2Proof.Machine

/-! ## The byte store -/

/-- What an address that no entry lists reads as. DESIGN CHOICE (notes/assumptions/5.md) for RAM at
`State.reset`; every other content of RAM or image is listed explicitly. -/
def Memory.unlisted : Byte := 0

/-- The byte at an address. -/
def Memory.read : Memory → Nat → Byte
  | [], _ => Memory.unlisted
  | (k, v) :: rest, a => if k = a then v else Memory.read rest a

/-- The store without an entry for an address. -/
def Memory.erase (m : Memory) (a : Nat) : Memory := m.filter fun c => c.1 != a

/-- The store with an entry put at its place in the rising order. -/
def Memory.insert : Memory → Nat → Byte → Memory
  | [], a, v => [(a, v)]
  | (k, w) :: rest, a, v => if a < k then (a, v) :: (k, w) :: rest else (k, w) :: Memory.insert rest a v

/-- Store a byte, keeping the canonical form. -/
def Memory.write (m : Memory) (a : Nat) (v : Byte) : Memory :=
  if v = Memory.unlisted then Memory.erase m a else Memory.insert (Memory.erase m a) a v

/-- The canonical form of a byte store: addresses strictly rising, no entry that is what an unlisted address
reads as. DESIGN CHOICE (notes/assumptions/5.md): the model's representation. -/
def Memory.wf (m : Memory) : Bool :=
  decide (m.Pairwise fun c d => c.1 < d.1) && m.all fun c => c.2 != Memory.unlisted

/-- Every address of the store is below a bound. -/
def Memory.below (m : Memory) (bound : Nat) : Bool := m.all fun c => decide (c.1 < bound)

/-- The store that holds a byte list at the addresses from `k` on. -/
def Memory.ofBytes : Nat → List Byte → Memory
  | _, [] => []
  | k, v :: vs => if v = Memory.unlisted then Memory.ofBytes (k + 1) vs else (k, v) :: Memory.ofBytes (k + 1) vs

/-! ## The memory router -/

/-- The first address of the PRG-ROM window (R36). -/
def romBase : Nat := 0x8000

/-- The offset in the image of an address in the PRG-ROM window: `(a - 0x8000) mod L` (R38, R39). -/
def prgOffset (s : State) (a : Word) : Nat := (a.toNat - romBase) % s.prgLen

/-- `MemRead(a, 1)`: the image, mirrored, at 0x8000 and above, RAM below (R38). It never faults (R50). -/
def memRead (a : Word) (s : State) : Byte :=
  if romBase ≤ a.toNat then Memory.read s.prg (prgOffset s a) else Memory.read s.ram a.toNat

/-- `ConstRead(i)`: the constant table, `table[i] = i` (R38). -/
def constRead (i : Byte) : Byte := i

/-- `RAM[a] := v`. -/
def ramWrite (a : Word) (v : Byte) (s : State) : State := { s with ram := Memory.write s.ram a.toNat v }

/-- `MemWrite(a, 1, v)`: `Fatal(RomWrite)` at 0x8000 and above, else a store into RAM (R40). -/
def memWrite (a : Word) (v : Byte) (s : State) : Host.Outcome State Fault Refusal :=
  if romBase ≤ a.toNat then .fault (.romWrite a) else .next (ramWrite a v s)

/-- `ConstWrite(i, v)`: always `Fatal(ConstantWrite)` (R40). -/
def constWrite (i : Byte) : Host.Outcome State Fault Refusal := .fault (.constantWrite i)

/-- `Read16(a)`: little-endian, the second byte at `(a + 1) mod 2^16` (R44). -/
def read16 (a : Word) (s : State) : Word := word (memRead (a + 1) s) (memRead a s)

/-- `ReadZP16(p)`: a pointer in zero page, its high byte at `(p + 1) mod 2^8` (R45). -/
def readZP16 (p : Byte) (s : State) : Word := word (memRead (zext16 (p + 1)) s) (memRead (zext16 p) s)

/-! ## Register write ports -/

/-- `A <- v`, with Z and N (R17). -/
def State.setA (v : Byte) (s : State) : State := { s with a := v, p := setZN v s.p }

/-- `X <- v`, with Z and N (R17). -/
def State.setX (v : Byte) (s : State) : State := { s with x := v, p := setZN v s.p }

/-- `Y <- v`, with Z and N (R17). -/
def State.setY (v : Byte) (s : State) : State := { s with y := v, p := setZN v s.p }

/-- `SP <- v`, no flag (R15). -/
def State.setSP (v : Byte) (s : State) : State := { s with sp := v }

/-- `PC <- v`, no flag (R16). -/
def State.setPC (v : Word) (s : State) : State := { s with pc := v }

/-- `P <- v`: stores `v | 0x20` (R22). -/
def State.setP (v : Byte) (s : State) : State := { s with p := statusValue v }

/-- Flags written into P by an operation, from the old P; a setter of flags never clears U (R23). -/
def State.updP (f : Byte → Byte) (s : State) : State := { s with p := f s.p }

/-- `P.f <- b` (R23). -/
def State.setFlag (f : Flag) (b : Bool) (s : State) : State := s.updP (Machine.setFlag f b)

/-- `PC <- (PC + n) mod 2^16` (R16, R87). -/
def State.advance (n : Nat) (s : State) : State := s.setPC (s.pc + BitVec.ofNat 16 n)

/-! ## The stack -/

/-- The address of a stack byte: `0x0100 + SP` (R15). -/
def stackAddr (sp : Byte) : Word := 0x0100 + zext16 sp

/-- `Push(v)`: store at `0x0100 + SP`, then decrement SP `mod 2^8` (R46). The address is always in RAM, so this
is `MemWrite` without its fault (Laws/Ops.lean `memWrite_stackAddr`). -/
def push (v : Byte) (s : State) : State := (ramWrite (stackAddr s.sp) v s).setSP (s.sp - 1)

/-- `Pull()`: increment SP `mod 2^8`, then read at `0x0100 + SP` (R47): the byte and the state. -/
def pull (s : State) : Byte × State := (memRead (stackAddr (s.sp + 1)) s, s.setSP (s.sp + 1))

/-- Push a 16-bit value, high byte first (R43, R103). -/
def push16 (w : Word) (s : State) : State := push (lo w) (push (hi w) s)

/-- Pull a 16-bit value, low byte first (R104). -/
def pull16 (s : State) : Word × State :=
  let l := pull s
  let h := pull l.2
  (word h.1 l.1, h.2)

/-! ## Taking a trap and returning from it -/

/-- The address of the BRK vector (R53). -/
def brkVector : Word := 0xFFFE

/-- The address of the reset vector (R53, R192). -/
def resetVector : Word := 0xFFFC

/-- Taking BRK's trap, the block's only entry into a handler (R106, R181): push the return address, high byte
first, then `P | 0x30`; set I; PC from the vector at 0xFFFE. B of P itself does not change. -/
def takeTrap (ret : Word) (s : State) : State :=
  let pushed := push (s.p ||| (breakMask ||| unusedMask)) (push16 ret s)
  let masked := pushed.setFlag .I true
  masked.setPC (read16 brkVector masked)

/-- Pull P: Break cleared, Unused forced to 1 (R132, R105). -/
def pullStatus (s : State) : State := (pull s).2.setP (pulledStatus (pull s).1)

/-- The return from a trap (R105, R182): pull P, then PC, low byte first, adding nothing. -/
def returnFromTrap (s : State) : State :=
  let r := pull16 (pullStatus s)
  r.2.setPC r.1

end Sys2Proof.Machine
end

