-- ==== Sys2Proof/Machine/Operands.lean ====
section
/-! DEFINITION. The addressing-mode resolver (spec/41_addressing.md R86 to R99), resolved locations
(spec/20_memory.md R37, R41, R42) and the four shapes of a resolved operation (spec/40_fetch_dispatch.md R82). -/

namespace Sys2Proof.Machine

/-- A resolved location (R37). -/
inductive Loc where
  /-- The accumulator. -/
  | acc
  /-- The constant region at the operand byte `i`. -/
  | const (i : Byte)
  /-- The 16-bit address `a`; the router picks RAM or PRG-ROM. -/
  | mem (a : Word)
  deriving DecidableEq, Repr

/-- `EA(mode, pc, X, Y)`: the location an operand resolves to. -/
def resolve (o : Operand) (s : State) : Loc :=
  match o with
  | .acc    => .acc                                        -- R97
  | .imm n  => .const n                                    -- R88
  | .zp n   => .mem (zext16 n)                             -- R89
  | .zpx n  => .mem (zext16 (n + s.x))                     -- R90
  | .zpy n  => .mem (zext16 (n + s.y))                     -- R91
  | .abs w  => .mem w                                      -- R92
  | .absx w => .mem (w + zext16 s.x)                       -- R93
  | .absy w => .mem (w + zext16 s.y)                       -- R94
  | .indx n => .mem (readZP16 (n + s.x) s)                 -- R95
  | .indy n => .mem (readZP16 n s + zext16 s.y)            -- R96

/-- `LocRead(loc)` (R41). -/
def locRead (l : Loc) (s : State) : Byte :=
  match l with
  | .acc => s.a
  | .const i => constRead i
  | .mem a => memRead a s

/-- `LocWrite(loc, v)` (R42). -/
def locWrite (l : Loc) (v : Byte) (s : State) : Host.Outcome State Fault Refusal :=
  match l with
  | .acc => .next (s.setA v)
  | .const i => constWrite i
  | .mem a => memWrite a v s

/-- The byte a resolved operation reads: `m := LocRead(loc)`. -/
def operandValue (o : Operand) (s : State) : Byte := locRead (resolve o s) s

/-- Load or compute (R82): read the location, then write a register or flags, `f m` acting on the state with PC
advanced. No location read depends on PC (R83). -/
def loadOp (o : Operand) (f : Byte → State → State) (s : State) : Host.Outcome State Fault Refusal :=
  .next (f (operandValue o s) (s.advance o.mode.len))

/-- Pure store (R82): write the location without reading it. -/
def storeOp (o : Operand) (v : Byte) (s : State) : Host.Outcome State Fault Refusal :=
  locWrite (resolve o s) v (s.advance o.mode.len)

/-- Read-modify-write (R82): the result `r` and the flags `f` an operation computes from the byte read, the flags
set, then one write of the result to the same location. -/
def modifyOp (o : Operand) (r : Byte → Byte) (f : Byte → Byte → Byte) (s : State) :
    Host.Outcome State Fault Refusal :=
  let m := operandValue o s
  locWrite (resolve o s) (r m) ((s.advance o.mode.len).updP (f m))

/-- Group-11 no-op (R82, R165): the resolver has advanced PC, Apply does nothing. -/
def ignoreOp (o : Operand) (s : State) : Host.Outcome State Fault Refusal :=
  .next (s.advance o.mode.len)

end Sys2Proof.Machine
end

