-- ==== Sys2Proof/Machine/ControlFlow.lean ====
section
/-! DEFINITION. Control transfer: spec/42_control_flow.md R101 to R115. PC holds the opcode's address on entry. -/

namespace Sys2Proof.Machine

/-- JMP absolute (R101) and indirect, the pointer's high byte read from the same page (R102). -/
def execJmp (t : JmpTarget) (s : State) : Host.Outcome State Fault Refusal :=
  match t with
  | .abs w => .next (s.setPC w)
  | .ind w => .next (s.setPC (word (memRead (word (hi w) (lo w + 1)) s) (memRead w s)))

/-- JSR (R103): push the address of its last byte, high byte first. -/
def execJsr (w : Word) (s : State) : Host.Outcome State Fault Refusal :=
  .next ((push16 (s.pc + 2) s).setPC w)

/-- RTS (R104): pull the address, low byte first, and add 1. -/
def execRts (s : State) : Host.Outcome State Fault Refusal :=
  let r := pull16 s
  .next (r.2.setPC (r.1 + 1))

/-- RTI (R105). -/
def execRti (s : State) : Host.Outcome State Fault Refusal := .next (returnFromTrap s)

/-- BRK (R106): the return address is `pc + 2`, skipping the padding byte. -/
def execBrk (s : State) : Host.Outcome State Fault Refusal := .next (takeTrap (s.pc + 2) s)

/-- The target of a branch: `next + sext_16(b1)`, `next = pc + 2` (R107). -/
def branchTarget (r : Byte) (s : State) : Word := s.pc + 2 + sext16 r

/-- The common rule of the branches (R107): taken when flag `f` holds `b`. -/
def branchOn (f : Flag) (b : Bool) (r : Byte) (s : State) : Host.Outcome State Fault Refusal :=
  .next (s.setPC (if getFlag f s.p = b then branchTarget r s else s.pc + 2))

/-- BPL, N = 0 (R108). -/
def execBpl (r : Byte) (s : State) : Host.Outcome State Fault Refusal := branchOn .N false r s

/-- BMI, N = 1 (R109). -/
def execBmi (r : Byte) (s : State) : Host.Outcome State Fault Refusal := branchOn .N true r s

/-- BVC, V = 0 (R110). -/
def execBvc (r : Byte) (s : State) : Host.Outcome State Fault Refusal := branchOn .V false r s

/-- BVS, V = 1 (R111). -/
def execBvs (r : Byte) (s : State) : Host.Outcome State Fault Refusal := branchOn .V true r s

/-- BCC, C = 0 (R112). -/
def execBcc (r : Byte) (s : State) : Host.Outcome State Fault Refusal := branchOn .C false r s

/-- BCS, C = 1 (R113). -/
def execBcs (r : Byte) (s : State) : Host.Outcome State Fault Refusal := branchOn .C true r s

/-- BNE, Z = 0 (R114). -/
def execBne (r : Byte) (s : State) : Host.Outcome State Fault Refusal := branchOn .Z false r s

/-- BEQ, Z = 1 (R115). -/
def execBeq (r : Byte) (s : State) : Host.Outcome State Fault Refusal := branchOn .Z true r s

end Sys2Proof.Machine
end

