-- ==== Sys2Proof/Machine/Group00.lean ====
section
/-! DEFINITION. Group 00: spec/45_group10_00.md R158 to R162. -/

namespace Sys2Proof.Machine

/-- BIT (R158). -/
def execBit (o : Operand) (s : State) : Host.Outcome State Fault Refusal :=
  loadOp o (fun m t => t.updP (setBit t.a m)) s

/-- STY (R159). -/
def execSty (o : Operand) (s : State) : Host.Outcome State Fault Refusal := storeOp o s.y s

/-- LDY (R160). -/
def execLdy (o : Operand) (s : State) : Host.Outcome State Fault Refusal := loadOp o (fun m t => t.setY m) s

/-- CPY (R161). -/
def execCpy (o : Operand) (s : State) : Host.Outcome State Fault Refusal :=
  loadOp o (fun m t => t.updP (setCmp t.y m)) s

/-- CPX (R162). -/
def execCpx (o : Operand) (s : State) : Host.Outcome State Fault Refusal :=
  loadOp o (fun m t => t.updP (setCmp t.x m)) s

end Sys2Proof.Machine
end

