-- ==== Sys2Proof/Machine/Group01.lean ====
section
/-! DEFINITION. Group 01: spec/44_group01.md R142 to R149. -/

namespace Sys2Proof.Machine

/-- ORA (R142). -/
def execOra (o : Operand) (s : State) : Host.Outcome State Fault Refusal :=
  loadOp o (fun m t => t.setA (t.a ||| m)) s

/-- AND (R143). -/
def execAnd (o : Operand) (s : State) : Host.Outcome State Fault Refusal :=
  loadOp o (fun m t => t.setA (t.a &&& m)) s

/-- EOR (R144). -/
def execEor (o : Operand) (s : State) : Host.Outcome State Fault Refusal :=
  loadOp o (fun m t => t.setA (t.a ^^^ m)) s

/-- The register and flag writes of ADC and SBC from an ALU result: C, V, then A with Z and N (R145, R146). -/
def State.setAlu (r : AluOut) (s : State) : State := ((s.setFlag .C r.c).setFlag .V r.v).setA r.r

/-- ADC (R145). -/
def execAdc (o : Operand) (s : State) : Host.Outcome State Fault Refusal :=
  loadOp o (fun m t => t.setAlu (aluAdd t.a m (getFlag .C t.p))) s

/-- SBC (R146). -/
def execSbc (o : Operand) (s : State) : Host.Outcome State Fault Refusal :=
  loadOp o (fun m t => t.setAlu (aluSub t.a m (getFlag .C t.p))) s

/-- STA (R147). -/
def execSta (o : Operand) (s : State) : Host.Outcome State Fault Refusal := storeOp o s.a s

/-- LDA (R148). -/
def execLda (o : Operand) (s : State) : Host.Outcome State Fault Refusal := loadOp o (fun m t => t.setA m) s

/-- CMP (R149). -/
def execCmp (o : Operand) (s : State) : Host.Outcome State Fault Refusal :=
  loadOp o (fun m t => t.updP (setCmp t.a m)) s

end Sys2Proof.Machine
end

