-- ==== Sys2Proof/Machine/Group10.lean ====
section
/-! DEFINITION. Group 10: spec/45_group10_00.md R150 to R157. -/

namespace Sys2Proof.Machine

/-- The common shape of the shifts and rotates: a read-modify-write whose result and flags come from `sh` (R150 to R153). -/
def shiftOp (o : Operand) (sh : Byte → ShiftOut) (s : State) : Host.Outcome State Fault Refusal :=
  modifyOp o (fun m => (sh m).r) (fun m => setShift (sh m)) s

/-- ASL (R150); the immediate form 0x02 faults (R71). -/
def execAsl (o : Operand) (s : State) : Host.Outcome State Fault Refusal := shiftOp o shiftAsl s

/-- ROL (R151); the immediate form 0x22 faults (R71). -/
def execRol (o : Operand) (s : State) : Host.Outcome State Fault Refusal :=
  shiftOp o (fun m => shiftRol m (getFlag .C s.p)) s

/-- LSR (R152); the immediate form 0x42 faults (R71). -/
def execLsr (o : Operand) (s : State) : Host.Outcome State Fault Refusal := shiftOp o shiftLsr s

/-- ROR (R153); the immediate form 0x62 faults (R71). -/
def execRor (o : Operand) (s : State) : Host.Outcome State Fault Refusal :=
  shiftOp o (fun m => shiftRor m (getFlag .C s.p)) s

/-- STX (R154). -/
def execStx (o : Operand) (s : State) : Host.Outcome State Fault Refusal := storeOp o s.x s

/-- LDX (R155). -/
def execLdx (o : Operand) (s : State) : Host.Outcome State Fault Refusal := loadOp o (fun m t => t.setX m) s

/-- DEC (R156): Z and N from the result, C and V unchanged. -/
def execDec (o : Operand) (s : State) : Host.Outcome State Fault Refusal :=
  modifyOp o (fun m => m - 1) (fun m => setZN (m - 1)) s

/-- INC (R157): Z and N from the result, C and V unchanged. -/
def execInc (o : Operand) (s : State) : Host.Outcome State Fault Refusal :=
  modifyOp o (fun m => m + 1) (fun m => setZN (m + 1)) s

end Sys2Proof.Machine
end

