-- ==== Sys2Proof/Machine/Group11.lean ====
section
/-! DEFINITION. Group 11: SAX (spec/46_group11.md R163, R164) and the no-op tags (R165 to R171). -/

namespace Sys2Proof.Machine

/-- SAX: a pure store of `A AND X`, no flag (R163); the immediate form 0x8B faults (R164). -/
def execSax (o : Operand) (s : State) : Host.Outcome State Fault Refusal := storeOp o (s.a &&& s.x) s

/-- Tag ANC (R166). -/
def execAnc (_op : Byte) (o : Operand) (s : State) : Host.Outcome State Fault Refusal := ignoreOp o s

/-- Tag ALR (R167). -/
def execAlr (o : Operand) (s : State) : Host.Outcome State Fault Refusal := ignoreOp o s

/-- Tag ARR (R168). -/
def execArr (o : Operand) (s : State) : Host.Outcome State Fault Refusal := ignoreOp o s

/-- Tag LAS (R169). -/
def execLas (_op : Byte) (o : Operand) (s : State) : Host.Outcome State Fault Refusal := ignoreOp o s

/-- Tag AXS (R170). -/
def execAxs (o : Operand) (s : State) : Host.Outcome State Fault Refusal := ignoreOp o s

/-- Tag SBC, undocumented (R171). -/
def execSbcUndoc (o : Operand) (s : State) : Host.Outcome State Fault Refusal := ignoreOp o s

end Sys2Proof.Machine
end

