-- ==== Sys2Proof/Machine/Implied.lean ====
section
/-! DEFINITION. Implied-mode instructions: spec/43_implied.md R116 to R138, and the decode gaps
(spec/40_fetch_dispatch.md R81). Each begins with `PC <- (pc + 1) mod 2^16` unless its rule says otherwise. -/

namespace Sys2Proof.Machine

/-- TAX (R116). -/
def execTax (s : State) : Host.Outcome State Fault Refusal := .next ((s.advance 1).setX s.a)

/-- TXA (R117). -/
def execTxa (s : State) : Host.Outcome State Fault Refusal := .next ((s.advance 1).setA s.x)

/-- TAY (R118). -/
def execTay (s : State) : Host.Outcome State Fault Refusal := .next ((s.advance 1).setY s.a)

/-- TYA (R119). -/
def execTya (s : State) : Host.Outcome State Fault Refusal := .next ((s.advance 1).setA s.y)

/-- TSX (R120). -/
def execTsx (s : State) : Host.Outcome State Fault Refusal := .next ((s.advance 1).setX s.sp)

/-- TXS, no flag (R121). -/
def execTxs (s : State) : Host.Outcome State Fault Refusal := .next ((s.advance 1).setSP s.x)

/-- The common shape of the flag instructions (R122 to R128). -/
def flagOp (f : Flag) (b : Bool) (s : State) : Host.Outcome State Fault Refusal :=
  .next ((s.advance 1).setFlag f b)

/-- CLC (R122). -/
def execClc (s : State) : Host.Outcome State Fault Refusal := flagOp .C false s

/-- SEC (R123). -/
def execSec (s : State) : Host.Outcome State Fault Refusal := flagOp .C true s

/-- CLI (R124). -/
def execCli (s : State) : Host.Outcome State Fault Refusal := flagOp .I false s

/-- SEI (R125). -/
def execSei (s : State) : Host.Outcome State Fault Refusal := flagOp .I true s

/-- CLV (R126). -/
def execClv (s : State) : Host.Outcome State Fault Refusal := flagOp .V false s

/-- CLD (R127). -/
def execCld (s : State) : Host.Outcome State Fault Refusal := flagOp .D false s

/-- SED (R128). -/
def execSed (s : State) : Host.Outcome State Fault Refusal := flagOp .D true s

/-- PHA (R129). -/
def execPha (s : State) : Host.Outcome State Fault Refusal := .next (push s.a (s.advance 1))

/-- PHP: the pushed byte has Break set, P itself does not change (R130). -/
def execPhp (s : State) : Host.Outcome State Fault Refusal := .next (push (s.p ||| breakMask) (s.advance 1))

/-- PLA (R131). -/
def execPla (s : State) : Host.Outcome State Fault Refusal :=
  .next ((pull (s.advance 1)).2.setA (pull (s.advance 1)).1)

/-- PLP (R132). -/
def execPlp (s : State) : Host.Outcome State Fault Refusal := .next (pullStatus (s.advance 1))

/-- INX (R133). -/
def execInx (s : State) : Host.Outcome State Fault Refusal := .next ((s.advance 1).setX (s.x + 1))

/-- INY (R134). -/
def execIny (s : State) : Host.Outcome State Fault Refusal := .next ((s.advance 1).setY (s.y + 1))

/-- DEX (R135). -/
def execDex (s : State) : Host.Outcome State Fault Refusal := .next ((s.advance 1).setX (s.x - 1))

/-- DEY (R136). -/
def execDey (s : State) : Host.Outcome State Fault Refusal := .next ((s.advance 1).setY (s.y - 1))

/-- NOP (R137). -/
def execNop (s : State) : Host.Outcome State Fault Refusal := .next (s.advance 1)

/-- NOP* (R138): advance PC by the length of its mode, read nothing. -/
def execNopInert (_op : Byte) (arg : Option Operand) (s : State) : Host.Outcome State Fault Refusal :=
  .next (s.advance (argMode arg).len)

/-- GAP (R81): advance PC by 1 and change nothing else. -/
def execGap (_op : Byte) (s : State) : Host.Outcome State Fault Refusal := .next (s.advance 1)

end Sys2Proof.Machine
end

