-- ==== Sys2Proof/Machine/Dispatch.lean ====
section
/-! DEFINITION. One arm per constructor of Instr: the meaning of each instruction (spec/40_fetch_dispatch.md R79, R82). -/

namespace Sys2Proof.Machine

def exec (i : Instr) (s : State) : Host.Outcome State Fault Refusal :=
  match i with
  -- 42_control_flow.md
  | .jmp t => Sys2Proof.Machine.execJmp t s
  | .jsr w => Sys2Proof.Machine.execJsr w s
  | .rts => Sys2Proof.Machine.execRts s
  | .rti => Sys2Proof.Machine.execRti s
  | .brk => Sys2Proof.Machine.execBrk s
  | .bpl r => Sys2Proof.Machine.execBpl r s
  | .bmi r => Sys2Proof.Machine.execBmi r s
  | .bvc r => Sys2Proof.Machine.execBvc r s
  | .bvs r => Sys2Proof.Machine.execBvs r s
  | .bcc r => Sys2Proof.Machine.execBcc r s
  | .bcs r => Sys2Proof.Machine.execBcs r s
  | .bne r => Sys2Proof.Machine.execBne r s
  | .beq r => Sys2Proof.Machine.execBeq r s
  -- 43_implied.md
  | .tax => Sys2Proof.Machine.execTax s
  | .txa => Sys2Proof.Machine.execTxa s
  | .tay => Sys2Proof.Machine.execTay s
  | .tya => Sys2Proof.Machine.execTya s
  | .tsx => Sys2Proof.Machine.execTsx s
  | .txs => Sys2Proof.Machine.execTxs s
  | .clc => Sys2Proof.Machine.execClc s
  | .sec => Sys2Proof.Machine.execSec s
  | .cli => Sys2Proof.Machine.execCli s
  | .sei => Sys2Proof.Machine.execSei s
  | .clv => Sys2Proof.Machine.execClv s
  | .cld => Sys2Proof.Machine.execCld s
  | .sed => Sys2Proof.Machine.execSed s
  | .pha => Sys2Proof.Machine.execPha s
  | .php => Sys2Proof.Machine.execPhp s
  | .pla => Sys2Proof.Machine.execPla s
  | .plp => Sys2Proof.Machine.execPlp s
  | .inx => Sys2Proof.Machine.execInx s
  | .iny => Sys2Proof.Machine.execIny s
  | .dex => Sys2Proof.Machine.execDex s
  | .dey => Sys2Proof.Machine.execDey s
  | .nop => Sys2Proof.Machine.execNop s
  | .nopInert op arg => Sys2Proof.Machine.execNopInert op arg s
  -- 44_group01.md
  | .ora o => Sys2Proof.Machine.execOra o s
  | .and o => Sys2Proof.Machine.execAnd o s
  | .eor o => Sys2Proof.Machine.execEor o s
  | .adc o => Sys2Proof.Machine.execAdc o s
  | .sta o => Sys2Proof.Machine.execSta o s
  | .lda o => Sys2Proof.Machine.execLda o s
  | .cmp o => Sys2Proof.Machine.execCmp o s
  | .sbc o => Sys2Proof.Machine.execSbc o s
  -- 45_group10_00.md
  | .asl o => Sys2Proof.Machine.execAsl o s
  | .rol o => Sys2Proof.Machine.execRol o s
  | .lsr o => Sys2Proof.Machine.execLsr o s
  | .ror o => Sys2Proof.Machine.execRor o s
  | .stx o => Sys2Proof.Machine.execStx o s
  | .ldx o => Sys2Proof.Machine.execLdx o s
  | .dec o => Sys2Proof.Machine.execDec o s
  | .inc o => Sys2Proof.Machine.execInc o s
  | .bit o => Sys2Proof.Machine.execBit o s
  | .sty o => Sys2Proof.Machine.execSty o s
  | .ldy o => Sys2Proof.Machine.execLdy o s
  | .cpy o => Sys2Proof.Machine.execCpy o s
  | .cpx o => Sys2Proof.Machine.execCpx o s
  -- 46_group11.md
  | .sax o => Sys2Proof.Machine.execSax o s
  | .anc op o => Sys2Proof.Machine.execAnc op o s
  | .alr o => Sys2Proof.Machine.execAlr o s
  | .arr o => Sys2Proof.Machine.execArr o s
  | .las op o => Sys2Proof.Machine.execLas op o s
  | .axs o => Sys2Proof.Machine.execAxs o s
  | .sbcUndoc o => Sys2Proof.Machine.execSbcUndoc o s
  -- 40_fetch_dispatch.md R81
  | .gap op => Sys2Proof.Machine.execGap op s

end Sys2Proof.Machine
end

