-- ==== Sys2Proof/Machine/Fetch.lean ====
section
/-! DEFINITION. The fetch unit: the bytes and the instruction at PC (spec/40_fetch_dispatch.md R77, R78), and
placing an instruction's bytes where the next fetch reads them. -/

namespace Sys2Proof.Machine

/-- The byte at `PC + k`, `mod 2^16`, through the router (R50, R77). -/
def fetchByte (k : Nat) (s : State) : Byte := memRead (s.pc + BitVec.ofNat 16 k) s

/-- The three bytes from PC on, as many as the longest instruction has (R61). -/
def fetchBytes (s : State) : List Byte := [fetchByte 0 s, fetchByte 1 s, fetchByte 2 s]

/-- The instruction at PC (R77, R78). Reads have no side effect (R52), so bytes the instruction does not have may be
read and ignored. -/
def fetchInstr (s : State) : Instr := decodeInstr (fetchByte 0 s) (fetchByte 1 s) (fetchByte 2 s)

/-- Put a byte where the router reads an address: into RAM, or into the image at the mirrored offset. The block has
no such port (R48): this is the loading of a program from outside the machine (notes/assumptions/7.md). -/
def placeByte (a : Word) (v : Byte) (s : State) : State :=
  if romBase ≤ a.toNat then { s with prg := Memory.write s.prg (prgOffset s a) v } else ramWrite a v s

/-- An address of the three bytes at PC is in the PRG-ROM window. -/
def fetchesRom (s : State) : Bool :=
  decide (romBase ≤ s.pc.toNat) || decide (romBase ≤ (s.pc + 1).toNat) || decide (romBase ≤ (s.pc + 2).toNat)

/-- An image shorter than three bytes cannot hold a three-byte instruction: where one is fetched from, the image
is given 32 KiB, so that three consecutive addresses are three different bytes. -/
def withRoomForWord (s : State) : State :=
  if fetchesRom s && decide (s.prgLen < 3) then { s with prgLen := 0x8000 } else s

/-- Three bytes placed at PC, PC + 1 and PC + 2. -/
def placeAtPC (b0 b1 b2 : Byte) (s : State) : State :=
  placeByte (s.pc + 2) b2 (placeByte (s.pc + 1) b1 (placeByte s.pc b0 s))

end Sys2Proof.Machine
end

