-- ==== Sys2Proof/Machine/Step.lean ====
section
/-! DEFINITION. One step: fetch, dispatch, and the instruction's meaning (spec/40_fetch_dispatch.md R76, R84). -/

namespace Sys2Proof.Machine

/-- One `step()`: exactly one instruction, from the state alone (R76, R85). -/
def step (s : State) : Host.Outcome State Fault Refusal := exec (fetchInstr s) s

/-- The state with an instruction of the opcode table stored at PC, its bits numbered as the table numbers them
and zero bytes after it up to three: the very next step runs it (notes/assumptions/7.md). -/
def State.withFetchWord (s : State) (nbits w : Nat) : State :=
  placeAtPC (tableByte nbits w 0) (tableByte nbits w 1) (tableByte nbits w 2) (withRoomForWord s)

end Sys2Proof.Machine
end

