-- ==== Sys2Proof/Machine/Lifecycle.lean ====
section
/-! DEFINITION. The host interface around the step: construction (spec/70_reset_and_hazards.md R191), the register
accessors and mutators (spec/10_state.md R19), the memory read port (spec/20_memory.md R48), the trace toggle
(R49), and the block's life from construction to a fatal step or teardown (R85, R176, R195). -/

namespace Sys2Proof.Machine

/-- `construct`: the whole state from the parameters, in the order of R191. Refused for an image of length 0 (R177). -/
def construct (q : Config.Params) : Except Refusal State :=
  if q.prg.length = 0 then .error .emptyImage
  else
    let s : State :=
      { a := q.a0, x := q.x0, y := q.y0, sp := q.sp0, pc := 0, p := statusValue q.p0
        ram := Memory.ofBytes 0 q.ramInit.toList, prg := Memory.ofBytes 0 q.prg, prgLen := q.prg.length
        trace := q.trace }
    .ok (s.setPC (q.pc0.getD (read16 resetVector s)))

/-- What the host may write between steps (R19, R23, R49). There is no port that writes memory (R48). -/
inductive HostCall where
  | setA (v : Byte)
  | setX (v : Byte)
  | setY (v : Byte)
  | setSP (v : Byte)
  | setPC (v : Word)
  | setStatus (v : Byte)
  | setFlag (f : Flag) (b : Bool)
  | setTrace (b : Bool)
  deriving DecidableEq, Repr

/-- The mutators, with the write ports' semantics (R17, R15, R16, R22, R23). -/
def applyHost (c : HostCall) (s : State) : State :=
  match c with
  | .setA v => s.setA v
  | .setX v => s.setX v
  | .setY v => s.setY v
  | .setSP v => s.setSP v
  | .setPC v => s.setPC v
  | .setStatus v => s.setP v
  | .setFlag f b => s.setFlag f b
  | .setTrace b => { s with trace := b }

/-- `ProcessorStatus`: all 8 bits of P with bit 5 set (R19). The other accessors are the fields of State. -/
def hostStatus (s : State) : Byte := statusValue s.p

/-- The host's `read(address)`: `MemRead`, changing no state (R48). -/
def hostRead (a : Word) (s : State) : Byte := memRead a s

/-- A block as the host holds it: running, stopped by a fatal step, or torn down. The state after a fatal step is
not defined (R176), so a stopped block has none. -/
inductive Block where
  | live (s : State)
  | stopped (f : Fault)
  | gone
  deriving DecidableEq, Repr

/-- The host's `step()`: refused on a block that is stopped (R85, I7) or torn down (R195). -/
def Block.step : Block → Except Refusal Block
  | .live s =>
    match Machine.step s with
    | .next t => .ok (.live t)
    | .fault f => .ok (.stopped f)
    | .refused r => .error r
  | .stopped _ => .error .afterFatal
  | .gone => .error .tornDown

/-- Teardown: it never fails, and a second one has no effect (R195). -/
def Block.teardown (_ : Block) : Block := .gone

end Sys2Proof.Machine
end

