-- ==== Sys2Proof/Machine/Timing.lean ====
section
/-! DEFINITION. The cycle count a step returns to the host (spec/70_reset_and_hazards.md R199, R200,
spec/42_control_flow.md R107). It is output only: no instruction reads it and no state holds it (R32, R186). -/

namespace Sys2Proof.Machine

/-- The base counts, row `op[7:4]`, column `op[3:0]` (R199). The five opcodes marked F return no count: their
entry is 0 and is never returned. A branch's count is `branchCycles`, a gap's `gapCycles`. -/
def cycleRows : List (List Nat) :=
  [[7, 6, 0, 8, 3, 3, 5, 5, 3, 2, 2, 2, 4, 4, 6, 6],
   [2, 5, 2, 8, 4, 4, 6, 6, 2, 4, 2, 7, 4, 4, 7, 7],
   [6, 6, 0, 8, 3, 3, 5, 5, 4, 2, 2, 2, 4, 4, 6, 6],
   [2, 5, 2, 8, 4, 4, 6, 6, 2, 4, 2, 7, 4, 4, 7, 7]] ++
  [[6, 6, 0, 8, 3, 3, 5, 5, 3, 2, 2, 2, 3, 4, 6, 6],
   [2, 5, 2, 8, 4, 4, 6, 6, 2, 4, 2, 7, 4, 4, 7, 7],
   [6, 6, 0, 8, 3, 3, 5, 5, 4, 2, 2, 2, 5, 4, 6, 6],
   [2, 5, 2, 8, 4, 4, 6, 6, 2, 4, 2, 7, 4, 4, 7, 7]] ++
  [[2, 6, 2, 6, 3, 3, 3, 3, 2, 2, 2, 0, 4, 4, 4, 4],
   [2, 6, 2, 6, 4, 4, 4, 4, 2, 5, 2, 5, 5, 5, 5, 5],
   [2, 6, 2, 6, 3, 3, 3, 3, 2, 2, 2, 2, 4, 4, 4, 4],
   [2, 5, 2, 5, 4, 4, 4, 4, 2, 4, 2, 4, 4, 4, 4, 4]] ++
  [[2, 6, 2, 8, 3, 3, 5, 5, 2, 2, 2, 2, 4, 4, 6, 6],
   [2, 5, 2, 8, 4, 4, 6, 6, 2, 4, 2, 7, 4, 4, 7, 7],
   [2, 6, 2, 8, 3, 3, 5, 5, 2, 2, 2, 2, 4, 4, 6, 6],
   [2, 5, 2, 8, 4, 4, 6, 6, 2, 4, 2, 7, 4, 4, 7, 7]]

/-- `CYCLE_TABLE`, at its default (R199, D20). -/
def cycleTable (op : Byte) : Nat := (cycleRows.getD (op.extractLsb' 4 4).toNat []).getD (op.extractLsb' 0 4).toNat 0

/-- `GAP_CYCLES`, at its default (R81, D20). -/
def gapCycles : Nat := 2

/-- The count of a branch (R107): 2 not taken, 3 taken within the page of `pc + 2`, 4 taken to another page
(conflict C4). -/
def branchCycles (f : Flag) (b : Bool) (r : Byte) (s : State) : Nat :=
  if getFlag f s.p = b then (if hi (branchTarget r s) = hi (s.pc + 2) then 3 else 4) else 2

/-- The count of an instruction that completes, for any `CYCLE_TABLE` and `GAP_CYCLES`. No page crossing of an
indexed access adds to it (R100). DESIGN CHOICE (notes/assumptions/15.md): a direct opcode that is no branch takes the
entry of the table given, also where that is not the number its own rule states. -/
def cyclesWith (table : Byte → Nat) (gap : Nat) (i : Instr) (s : State) : Nat :=
  match i with
  | .bpl r => branchCycles .N false r s
  | .bmi r => branchCycles .N true r s
  | .bvc r => branchCycles .V false r s
  | .bvs r => branchCycles .V true r s
  | .bcc r => branchCycles .C false r s
  | .bcs r => branchCycles .C true r s
  | .bne r => branchCycles .Z false r s
  | .beq r => branchCycles .Z true r s
  | .gap _ => gap
  | .jmp _ | .jsr _ | .rts | .rti | .brk
  | .tax | .txa | .tay | .tya | .tsx | .txs
  | .clc | .sec | .cli | .sei | .clv | .cld | .sed
  | .pha | .php | .pla | .plp | .inx | .iny | .dex | .dey | .nop | .nopInert _ _
  | .ora _ | .and _ | .eor _ | .adc _ | .sta _ | .lda _ | .cmp _ | .sbc _
  | .asl _ | .rol _ | .lsr _ | .ror _ | .stx _ | .ldx _ | .dec _ | .inc _
  | .bit _ | .sty _ | .ldy _ | .cpy _ | .cpx _
  | .sax _ | .anc _ _ | .alr _ | .arr _ | .las _ _ | .axs _ | .sbcUndoc _ => table i.opcode

/-- The count under the default parameters. -/
def cyclesOf (i : Instr) (s : State) : Nat := cyclesWith cycleTable gapCycles i s

/-- One step with what it returns to the host: `Ok(s', cycles)` or `Fatal(reason)` (R11, R76), for any cycle
parameters. -/
def stepTimedWith (table : Byte → Nat) (gap : Nat) (s : State) : Host.Outcome (State × Nat) Fault Refusal :=
  match step s with
  | .next t => .next (t, cyclesWith table gap (fetchInstr s) s)
  | .fault f => .fault f
  | .refused r => .refused r

/-- One step with its cycle count under the default parameters. -/
def stepTimed (s : State) : Host.Outcome (State × Nat) Fault Refusal := stepTimedWith cycleTable gapCycles s

end Sys2Proof.Machine
end

