-- ==== Sys2Proof/Safety.lean ====
section
/-! DEFINITION. What claims call a good state, a reachable state, a fault and a frame. -/

namespace Sys2Proof.Machine

/-! ## Good and reachable states -/

/-- The invariant of the block: U of P is 1 (R21), RAM and image are in canonical form and within their bounds, and the
image is not empty (R36, R177). Canonical form and bounds of the two stores are a property of the model's own
representation (DESIGN CHOICE, notes/assumptions/5.md). -/
abbrev State.Inv (s : State) : Prop :=
  getFlag .U s.p = true ∧ Memory.wf s.ram = true ∧ Memory.below s.ram romBase = true ∧
  Memory.wf s.prg = true ∧ Memory.below s.prg s.prgLen = true ∧ 0 < s.prgLen

/-- The states a block passes through between its steps: construction, completed steps and host calls (R85). -/
inductive Reachable : State → Prop where
  | construct {q : Config.Params} {s : State} : Machine.construct q = .ok s → Reachable s
  | step {s t : State} : Reachable s → Machine.step s = .next t → Reachable t
  | host {s : State} (c : HostCall) : Reachable s → Reachable (applyHost c s)

/-! ## Faults -/

/-- The operand whose location the instruction writes in Apply: the pure stores and the read-modify-writes (R82). -/
def Instr.writes : Instr → Option Operand
  | .sta o | .stx o | .sty o | .sax o => some o
  | .asl o | .rol o | .lsr o | .ror o | .dec o | .inc o => some o
  | .jmp _ | .jsr _ | .rts | .rti | .brk
  | .bpl _ | .bmi _ | .bvc _ | .bvs _ | .bcc _ | .bcs _ | .bne _ | .beq _
  | .tax | .txa | .tay | .tya | .tsx | .txs
  | .clc | .sec | .cli | .sei | .clv | .cld | .sed
  | .pha | .php | .pla | .plp | .inx | .iny | .dex | .dey | .nop | .nopInert _ _
  | .ora _ | .and _ | .eor _ | .adc _ | .lda _ | .cmp _ | .sbc _
  | .ldx _ | .bit _ | .ldy _ | .cpy _ | .cpx _
  | .anc _ _ | .alr _ | .arr _ | .las _ _ | .axs _ | .sbcUndoc _ | .gap _ => none

/-- The fault a write to a location raises (R40, R42), if any. -/
def Loc.fault : Loc → Option Fault
  | .acc => none
  | .const i => some (.constantWrite i)
  | .mem a => if romBase ≤ a.toNat then some (.romWrite a) else none

/-! ## Frames -/

/-- The 8-bit registers beside P. -/
inductive Reg where
  | A | X | Y | SP
  deriving DecidableEq, Repr

/-- The value of a register. -/
def getReg (r : Reg) (s : State) : Byte :=
  match r with
  | .A => s.a
  | .X => s.x
  | .Y => s.y
  | .SP => s.sp

/-- Every register but those listed holds in `t` what it held in `s`. -/
def RegsKept (except : List Reg) (s t : State) : Prop := ∀ r, r ∉ except → getReg r t = getReg r s

/-- Every flag but those listed holds in `t` what it held in `s`. -/
def FlagsKept (except : List Flag) (s t : State) : Prop := ∀ f, f ∉ except → getFlag f t.p = getFlag f s.p

/-- Every address reads in `t` as it read in `s`. -/
def MemKept (s t : State) : Prop := ∀ b, memRead b t = memRead b s

/-- Every address reads in `t` as it read in `s`, but for `a`, which reads `v`. -/
def MemStored (a : Word) (v : Byte) (s t : State) : Prop :=
  ∀ b, memRead b t = if b = a then v else memRead b s

/-- PC is `n` past the PC of `s`, `mod 2^16`. -/
def PcPast (n : Nat) (s t : State) : Prop := t.pc.toNat = (s.pc.toNat + n) % 2 ^ 16

/-- Z and N describe the byte `v`: Z is "v is zero", N is bit 7 of `v` (R17). -/
def ZNOf (v : Byte) (t : State) : Prop :=
  getFlag .Z t.p = decide (v.toNat = 0) ∧ getFlag .N t.p = decide (128 ≤ v.toNat)

/-- The instruction completes in a state that has the property. -/
def Gives (i : Instr) (s : State) (post : State → Prop) : Prop := ∃ t, exec i s = .next t ∧ post t

/-- The opcode bytes of the forms of an instruction are exactly the rows listed, opcode and mode. -/
def OpcodesAre (mk : Operand → Instr) (rows : List (Byte × Mode)) : Prop :=
  ∀ op m, (op, m) ∈ rows ↔ ∃ o, o.mode = m ∧ (mk o).WellFormed = true ∧ (mk o).opcode = op

end Sys2Proof.Machine
end

