-- ==== Sys2Proof/Certificates/Slice0/Obligations.lean ====
section
/-! DEFINITION. The statements for the provers. Each docstring names the rule of spec/ the statement follows.
Names of Sys2Proof/Safety.lean: `Gives`, `RegsKept`, `FlagsKept`, `MemKept`, `MemStored`, `PcPast`, `ZNOf`, `OpcodesAre`. -/

open Sys2Proof Sys2Proof.Machine

namespace Sys2Proof.Claims

/-! ## Vocabulary of the statements -/

/-- Nothing but PC (`n` further) and the flags listed changes. -/
def OnlyFlags (n : Nat) (flags : List Flag) (s t : State) : Prop :=
  PcPast n s t ∧ RegsKept [] s t ∧ FlagsKept flags s t ∧ MemKept s t

/-- Register `r` becomes `v`, Z and N describe `v`, PC is `n` further, and nothing else changes. -/
def LoadsReg (n : Nat) (r : Reg) (v : Byte) (s t : State) : Prop :=
  PcPast n s t ∧ getReg r t = v ∧ ZNOf v t ∧ RegsKept [r] s t ∧ FlagsKept [.Z, .N] s t ∧ MemKept s t

/-- The one-byte instruction `i` is the byte `op`, always completes as `post` says, and returns `cycles`. -/
def ImpliedIs (i : Instr) (op : Byte) (cycles : Nat) (post : State → State → Prop) : Prop :=
  encode i = [op] ∧ ∀ s, Gives i s (post s) ∧ cyclesOf i s = cycles

/-- The flags of a compare of `r` with `m`: C is `r >= m` unsigned, Z is equality, N is bit 7 of the difference. -/
def CompareFlags (r m : Byte) (t : State) : Prop :=
  getFlag .C t.p = decide (m.toNat ≤ r.toNat) ∧ getFlag .Z t.p = decide (r = m) ∧
  getFlag .N t.p = decide (128 ≤ (r.toNat + 256 - m.toNat) % 256)

/-- A compare writes C, Z and N and advances PC, and nothing else. -/
def CompareIs (mk : Operand → Instr) (r : Reg) : Prop :=
  ∀ o s, Gives (mk o) s fun t =>
    CompareFlags (getReg r s) (operandValue o s) t ∧ OnlyFlags o.mode.len [.C, .Z, .N] s t

/-- A pure store of `v`: one byte below 0x8000, else the fault of the location; no flag, no register. -/
def StoreIs (mk : Operand → Instr) (v : State → Byte) : Prop :=
  ∀ o s,
    (∀ a, resolve o s = .mem a → a.toNat < 0x8000 → Gives (mk o) s fun t =>
      MemStored a (v s) s t ∧ PcPast o.mode.len s t ∧ RegsKept [] s t ∧ FlagsKept [] s t) ∧
    (∀ a, resolve o s = .mem a → 0x8000 ≤ a.toNat → exec (mk o) s = .fault (.romWrite a)) ∧
    (∀ i, resolve o s = .const i → exec (mk o) s = .fault (.constantWrite i))

/-- A read-modify-write with result `res m c` of the byte read and the old carry: the accumulator form writes A,
a memory form below 0x8000 stores one byte, any other location faults; `flags` are the flags it may change,
`carry` what it says of C. -/
def ModifyIs (mk : Operand → Instr) (res : Nat → Nat → Nat) (flags : List Flag)
    (carry : Nat → State → Prop) : Prop :=
  ∀ o s,
    let m := (operandValue o s).toNat
    let r := BitVec.ofNat 8 (res m (getFlag .C s.p).toNat)
    let common := fun t => carry m t ∧ ZNOf r t ∧ FlagsKept flags s t ∧ PcPast o.mode.len s t
    (resolve o s = .acc → Gives (mk o) s fun t => common t ∧ t.a = r ∧ RegsKept [.A] s t ∧ MemKept s t) ∧
    (∀ a, resolve o s = .mem a → a.toNat < 0x8000 →
      Gives (mk o) s fun t => common t ∧ MemStored a r s t ∧ RegsKept [] s t) ∧
    (∀ a, resolve o s = .mem a → 0x8000 ≤ a.toNat → exec (mk o) s = .fault (.romWrite a)) ∧
    (∀ i, resolve o s = .const i → exec (mk o) s = .fault (.constantWrite i))

/-- C holds the bit shifted out, given as a number. -/
def CarryIs (out : Nat → Nat) (m : Nat) (t : State) : Prop := getFlag .C t.p = decide (out m = 1)

/-- A branch: two bytes, taken when flag `f` is `b`, to `pc + 2` plus the signed offset; 2 cycles untaken, 3 taken
within the page of `pc + 2`, 4 taken to another page. -/
def BranchIs (mk : Byte → Instr) (op : Byte) (f : Flag) (b : Bool) : Prop :=
  ∀ r s,
    let next := (s.pc.toNat + 2) % 2 ^ 16
    let target := (((next : Int) + r.toInt) % 2 ^ 16).toNat
    encode (mk r) = [op, r] ∧
    (Gives (mk r) s fun t =>
      t.pc.toNat = (if getFlag f s.p = b then target else next) ∧
      RegsKept [] s t ∧ FlagsKept [] s t ∧ MemKept s t) ∧
    cyclesOf (mk r) s = if getFlag f s.p = b then (if target / 256 = next / 256 then 3 else 4) else 2

/-- A group-11 no-op tag: only PC advances, by the mode's length; the count is the opcode's base count. -/
def IgnoresOperand (mk : Operand → Instr) : Prop :=
  ∀ o s, Gives (mk o) s (OnlyFlags o.mode.len [] s) ∧ cyclesOf (mk o) s = cycleTable (mk o).opcode

/-- The opcode bytes that decode to a form of an instruction which carries its opcode byte are exactly the rows
listed, opcode and mode. -/
def DecodesAre (mk : Byte → Operand → Instr) (rows : List (Byte × Mode)) : Prop :=
  ∀ op m, (op, m) ∈ rows ↔ ∃ b1 b2 o, o.mode = m ∧ decodeInstr op b1 b2 = mk op o

/-- The byte at a numeric address. -/
def byteAt (k : Nat) (s : State) : Nat := (memRead (BitVec.ofNat 16 k) s).toNat

/-- The location is the memory address `n`. -/
def MemAt (n : Nat) (l : Loc) : Prop := ∃ a, l = .mem a ∧ a.toNat = n

/-- The location each mode resolves to (R88 to R97), from the two bytes after PC. -/
def LocationOf (m : Mode) (s : State) (l : Loc) : Prop :=
  let n := byteAt (s.pc.toNat + 1) s
  let w := n + 256 * byteAt (s.pc.toNat + 2) s
  let pointer := fun p => byteAt p s + 256 * byteAt ((p + 1) % 256) s
  match m with
  | .accumulator => l = .acc
  | .immediate => l = .const (BitVec.ofNat 8 n)
  | .zeroPage => MemAt n l
  | .zeroPageX => MemAt ((n + s.x.toNat) % 256) l
  | .zeroPageY => MemAt ((n + s.y.toNat) % 256) l
  | .absolute => MemAt w l
  | .absoluteX => MemAt ((w + s.x.toNat) % 2 ^ 16) l
  | .absoluteY => MemAt ((w + s.y.toNat) % 2 ^ 16) l
  | .indexedIndirect => MemAt (pointer ((n + s.x.toNat) % 256)) l
  | .indirectIndexed => MemAt ((pointer n + s.y.toNat) % 2 ^ 16) l
  | .implied | .relative | .indirect => False

/-- The flags an instruction may write (R24 to R30). -/
def flagsWritten : Instr → List Flag
  | .plp | .rti => [.C, .Z, .I, .D, .B, .U, .V, .N]
  | .adc _ | .sbc _ => [.C, .V, .Z, .N]
  | .cmp _ | .cpx _ | .cpy _ | .asl _ | .rol _ | .lsr _ | .ror _ => [.C, .Z, .N]
  | .bit _ => [.Z, .N, .V]
  | .ora _ | .and _ | .eor _ | .lda _ | .ldx _ | .ldy _ | .dec _ | .inc _
  | .tax | .txa | .tay | .tya | .tsx | .pla | .inx | .iny | .dex | .dey => [.Z, .N]
  | .clc | .sec => [.C]
  | .cli | .sei | .brk => [.I]
  | .clv => [.V]
  | .cld | .sed => [.D]
  | .jmp _ | .jsr _ | .rts
  | .bpl _ | .bmi _ | .bvc _ | .bvs _ | .bcc _ | .bcs _ | .bne _ | .beq _
  | .txs | .pha | .php | .nop | .nopInert _ _ | .sta _ | .stx _ | .sty _ | .sax _
  | .anc _ _ | .alr _ | .arr _ | .las _ _ | .axs _ | .sbcUndoc _ | .gap _ => []

/-- The registers an instruction may write (R12 to R15). -/
def regsWritten : Instr → List Reg
  | .lda _ | .ora _ | .and _ | .eor _ | .adc _ | .sbc _ | .txa | .tya => [.A]
  | .asl .acc | .rol .acc | .lsr .acc | .ror .acc => [.A]
  | .pla => [.A, .SP]
  | .ldx _ | .tax | .tsx | .inx | .dex => [.X]
  | .ldy _ | .tay | .iny | .dey => [.Y]
  | .txs | .pha | .php | .plp | .jsr _ | .rts | .rti | .brk => [.SP]
  | .asl _ | .rol _ | .lsr _ | .ror _ | .dec _ | .inc _
  | .jmp _ | .bpl _ | .bmi _ | .bvc _ | .bvs _ | .bcc _ | .bcs _ | .bne _ | .beq _
  | .clc | .sec | .cli | .sei | .clv | .cld | .sed | .nop | .nopInert _ _
  | .cmp _ | .cpx _ | .cpy _ | .bit _ | .sta _ | .stx _ | .sty _ | .sax _
  | .anc _ _ | .alr _ | .arr _ | .las _ _ | .axs _ | .sbcUndoc _ | .gap _ => []

/-- The stack bytes an instruction pushes, first pushed first (R51). -/
def stackBytes (i : Instr) (s : State) : List Word :=
  match i with
  | .pha | .php => [stackAddr s.sp]
  | .jsr _ => [stackAddr s.sp, stackAddr (s.sp - 1)]
  | .brk => [stackAddr s.sp, stackAddr (s.sp - 1), stackAddr (s.sp - 2)]
  | _ => []

/-- The branches, whose cycle count is not the table's (R107). -/
def isBranch : Instr → Bool
  | .bpl _ | .bmi _ | .bvc _ | .bvs _ | .bcc _ | .bcs _ | .bne _ | .beq _ => true
  | _ => false

/-- Two states agree but for the flag `f`. -/
def AgreeBut (f : Flag) (s t : State) : Prop :=
  RegsKept [] s t ∧ FlagsKept [f] s t ∧ MemKept s t ∧ t.pc = s.pc

end Sys2Proof.Claims

open Sys2Proof.Claims

/-! ## Encoding -/

/-- Words written out from the encodings of 42 to 46 and R69, R70: one or more of each family. -/
def Obligations.SpecWordsDecode : Prop :=
  decode [0x4C, 0xF5, 0xC5] = .ok (.jmp (.abs 0xC5F5), []) ∧
  decode [0x6C, 0xFF, 0x02] = .ok (.jmp (.ind 0x02FF), []) ∧
  decode [0x20, 0x00, 0xD0] = .ok (.jsr 0xD000, []) ∧
  decode [0x00, 0xEA] = .ok (.brk, [0xEA]) ∧
  decode [0x30, 0x02] = .ok (.bmi 0x02, []) ∧
  decode [0xBA] = .ok (.tsx, []) ∧
  decode [0x89, 0x10] = .ok (.nopInert 0x89 (some (.imm 0x10)), []) ∧
  decode [0x71, 0x86] = .ok (.adc (.indy 0x86), []) ∧
  decode [0x9D, 0xFF, 0x7F] = .ok (.sta (.absx 0x7FFF), []) ∧
  decode [0x96, 0x10] = .ok (.stx (.zpy 0x10), []) ∧
  decode [0xBE, 0x00, 0x30] = .ok (.ldx (.absy 0x3000), []) ∧
  decode [0x9C, 0x00, 0x30] = .ok (.sty (.absx 0x3000), []) ∧
  decode [0x83, 0x20] = .ok (.sax (.indx 0x20), []) ∧
  decode [0xEB, 0x01] = .ok (.sbcUndoc (.imm 0x01), []) ∧
  decode [0x12, 0x34] = .ok (.gap 0x12, [0x34]) ∧
  decode [0x9D, 0xFF] = .error (.truncated 0x9D) ∧ decode [] = .error .noBytes

/-- Decoding an encoded row of the opcode table gives it back and leaves the bytes after it (R61, R72). -/
def Obligations.DecodeOfEncodeIsTheInstruction : Prop :=
  ∀ (i : Instr) (rest : List Byte), i.WellFormed = true → decode (encode i ++ rest) = .ok (i, rest)

/-- Every opcode byte has one entry, and encoding it gives the bytes decoded: the first bytes, as many as the
instruction's length, 1 to 3 (R62, R72). -/
def Obligations.EncodeOfDecodeIsTheBytes : Prop :=
  ∀ op b1 b2 : Byte,
    (decodeInstr op b1 b2).WellFormed = true ∧
    encode (decodeInstr op b1 b2) = [op, b1, b2].take (opcodeLength op) ∧
    1 ≤ opcodeLength op ∧ opcodeLength op ≤ 3

/-- The four decode classes and their counts, and the eight gaps (R66, R70). The counts are the spec's own inference:
R66's "The counts are 36 direct, 27 inert, 185 resolved and 8 gap opcodes". -/
def Obligations.DecodeClassesPartitionTheOpcodes : Prop :=
  let ops := (List.range 256).map (BitVec.ofNat 8)
  (ops.filter (classOf · == .direct)).length = 36 ∧ (ops.filter (classOf · == .inert)).length = 27 ∧
  (ops.filter (classOf · == .resolved)).length = 185 ∧
  ops.filter (classOf · == .gap) = [0x12, 0x32, 0x52, 0x72, 0x92, 0xB2, 0xD2, 0xF2] ∧
  ∀ op, classOf op = .gap ↔ ∀ b1 b2, decodeInstr op b1 b2 = .gap op

/-- The Y-index override: in the indexed cells of R63 the index is Y for exactly six opcodes (R64). -/
def Obligations.YOverrideIsExactlySixOpcodes : Prop :=
  ∀ op : Byte,
    (cellMode (bbbOf op) (ccOf op) = some .zeroPageX →
      resolverMode op = some (if op ∈ [0x96, 0x97, 0xB6, 0xB7] then .zeroPageY else .zeroPageX)) ∧
    (cellMode (bbbOf op) (ccOf op) = some .absoluteX →
      resolverMode op = some (if op ∈ [0xBE, 0xBF] then .absoluteY else .absoluteX)) ∧
    (cellMode (bbbOf op) (ccOf op) ≠ some .zeroPageX → cellMode (bbbOf op) (ccOf op) ≠ some .absoluteX →
      resolverMode op = cellMode (bbbOf op) (ccOf op))

/-! ## The step -/

/-- Fetch, dispatch and execution (R76 to R78): the bytes at PC always decode, to a row of the opcode table, and
the step is that instruction's meaning at that state. -/
def Obligations.StepRunsTheDecodedInstruction : Prop :=
  (∀ s i rest, decode (fetchBytes s) = .ok (i, rest) → step s = exec i s) ∧
  ∀ s, ∃ i rest, decode (fetchBytes s) = .ok (i, rest) ∧ i.WellFormed = true

/-- The model's own placing of an instruction (notes/assumptions/7.md), from any state: the next step runs exactly
the instruction of the table word, and the registers are as before. -/
def Obligations.FetchWordIsRunByTheNextStep : Prop :=
  ∀ (s : State) (nbits w : Nat) (i : Instr), decodeTableWord nbits w = some i →
    step (s.withFetchWord nbits w) = exec i (s.withFetchWord nbits w) ∧
    (s.withFetchWord nbits w).pc = s.pc ∧ (s.withFetchWord nbits w).p = s.p ∧
    RegsKept [] s (s.withFetchWord nbits w)

/-- A step is total: a next state or one of the two fatal reasons, never a refusal (R84). -/
def Obligations.StepIsTotal : Prop :=
  ∀ s, (∃ t, step s = .next t) ∨ (∃ i, step s = .fault (.constantWrite i)) ∨ ∃ a, step s = .fault (.romWrite a)

/-- A step faults exactly when its instruction, a pure store or a read-modify-write, writes a location that faults:
an address of the PRG-ROM window (R174) or an immediate operand's (R42, R173); and the fault carries that location
(R175). That nothing else faults rests on the spec's own inferences: R79's "No direct rule faults" and R173's "every
other write-back operation has a `Mem` or `Acc` location". -/
def Obligations.StepFaultsExactlyOnForbiddenWrites : Prop :=
  ∀ s f, step s = .fault f ↔ ∃ o, Instr.writes (fetchInstr s) = some o ∧ Loc.fault (resolve o s) = some f

/-- `Fatal(ConstantWrite)` is raised by exactly five opcodes, on every execution, with the immediate operand byte
as its location. The list is the spec's own inference: R173's "exactly the five opcodes whose operation writes back
to an immediate location". -/
def Obligations.ConstantWriteIsRaisedByFiveOpcodes : Prop :=
  ∀ s i, step s = .fault (.constantWrite i) ↔
    fetchByte 0 s ∈ [0x02, 0x22, 0x42, 0x62, (0x8B : Byte)] ∧ i = fetchByte 1 s

/-- The direct, inert and gap opcodes never fault (R138, R81), nor do the resolved ones that write no location. Of the
direct ones it is the spec's own inference: R79's "No direct rule faults". -/
def Obligations.StepsWithoutStoreComplete : Prop :=
  ∀ s, classOf (fetchByte 0 s) ≠ .resolved ∨ Instr.writes (fetchInstr s) = none → ∃ t, step s = .next t

/-! ## Construction and invariants -/

/-- `construct` (R191): refused for an empty image alone; else every piece of state is the parameter's, bit 5 of P
is 1, RAM and the mirrored image read as given, and PC is `PC0` or the word at 0xFFFC. -/
def Obligations.ConstructionMakesTheWholeState : Prop :=
  (∀ q r, construct q = .error r ↔ q.prg.length = 0 ∧ r = .emptyImage) ∧
  ∀ q s, construct q = .ok s →
    s.a = q.a0 ∧ s.x = q.x0 ∧ s.y = q.y0 ∧ s.sp = q.sp0 ∧ s.trace = q.trace ∧
    (∀ f, getFlag f s.p = (getFlag f q.p0 || f == .U)) ∧ s.prgLen = q.prg.length ∧
    (∀ k (h : k < 0x8000), memRead (BitVec.ofNat 16 k) s = q.ramInit[k]) ∧
    (∀ k, k < 0x8000 → memRead (BitVec.ofNat 16 (0x8000 + k)) s = q.prg.getD (k % q.prg.length) 0) ∧
    s.pc.toNat = (q.pc0.map BitVec.toNat).getD (byteAt 0xFFFC s + 256 * byteAt 0xFFFD s)

/-- The model's choice (notes/assumptions/1.md to 6.md): `State.reset` is the construction from the named
parameters. -/
def Obligations.ResetIsTheNamedConstruction : Prop := construct Config.resetParams = .ok State.reset

/-- `State.reset` meets the invariant of the block. Bit 5 of P is R21's and the non-empty image R36's and R177's; that
RAM and image are in canonical form and within their bounds is a property of the model's own representation
(notes/assumptions/5.md), and `State.reset` itself is the model's choice (notes/assumptions/1.md to 6.md). -/
def Obligations.ResetMeetsTheInvariant : Prop := State.reset.Inv

/-- From every state that meets the invariant, reached or not, a step leads to one that meets it. Bit 5 of P is R21's
and the non-empty image R36's and R177's; that RAM and image are in canonical form and within their bounds is a
property of the model's own representation (DESIGN CHOICE, notes/assumptions/5.md). -/
def Obligations.StepKeepsTheInvariant : Prop := ∀ s t : State, s.Inv → step s = .next t → t.Inv

/-- Every state a block passes through, from any construction, by steps and host calls (R19, R85), meets the
invariant. Bit 5 of P is R21's and the non-empty image R36's and R177's; that RAM and image are in canonical form and
within their bounds is a property of the model's own representation (notes/assumptions/5.md). -/
def Obligations.ReachableStatesMeetTheInvariant : Prop := ∀ s, Reachable s → s.Inv

/-- No instruction changes the PRG-ROM image, its length or the trace enable (R36, R49, R59). -/
def Obligations.InstructionsKeepImageAndTrace : Prop :=
  ∀ i s t, exec i s = .next t → t.prg = s.prg ∧ t.prgLen = s.prgLen ∧ t.trace = s.trace

/-- A step's outcome is the same with the trace enable on or off (R49). -/
def Obligations.TraceNeverChangesTheOutcome : Prop :=
  ∀ (s : State) (b : Bool),
    step { s with trace := b } =
      match step s with
      | .next t => .next { t with trace := b }
      | .fault f => .fault f
      | .refused r => .refused r

/-! ## Memory -/

/-- PRG-ROM mirroring (R39): `0x8000 + k` reads as `0x8000 + (k mod L)`; of any constructed image it reads
`PRG[k mod L]`, so one to one for `L = 0x8000`; `L = 0` is refused. Of a longer image only the first 32 KiB is reachable, the
spec's own inference in R39. -/
def Obligations.PrgRomMirrorsTheImage : Prop :=
  (∀ (s : State) k, 0 < s.prgLen → k < 0x8000 →
    memRead (BitVec.ofNat 16 (0x8000 + k)) s = memRead (BitVec.ofNat 16 (0x8000 + k % s.prgLen)) s) ∧
  (∀ q s k, construct q = .ok s → k < 0x8000 →
    memRead (BitVec.ofNat 16 (0x8000 + k)) s = q.prg.getD (k % q.prg.length) 0) ∧
  ∀ q, q.prg.length = 0 → construct q = .error .emptyImage

/-- Router and location writes (R40, R42): below 0x8000 one byte of RAM, at and above it `Fatal(RomWrite)`, the
constant region `Fatal(ConstantWrite)`, the accumulator through its write port without touching memory. -/
def Obligations.LocationWritesStoreOrFault : Prop :=
  ∀ (v : Byte) (s : State),
    (∀ a : Word, a.toNat < 0x8000 → ∃ t, locWrite (.mem a) v s = .next t ∧ memWrite a v s = .next t ∧
      MemStored a v s t ∧ RegsKept [] s t ∧ FlagsKept [] s t ∧ t.pc = s.pc) ∧
    (∀ a : Word, 0x8000 ≤ a.toNat →
      locWrite (.mem a) v s = .fault (.romWrite a) ∧ memWrite a v s = .fault (.romWrite a)) ∧
    (∀ i, locWrite (.const i) v s = .fault (.constantWrite i) ∧ constWrite i = .fault (.constantWrite i)) ∧
    ∃ t, locWrite .acc v s = .next t ∧ t.a = v ∧ ZNOf v t ∧ RegsKept [.A] s t ∧ FlagsKept [.Z, .N] s t ∧
      MemKept s t ∧ t.pc = s.pc

/-- The write port of A, X and Y (R17), used by instructions and host alike: the register, and Z and N from it. -/
def Obligations.RegisterWritePortSetsZN : Prop :=
  ∀ (v : Byte) (s : State),
    (LoadsReg 0 .A v s (s.setA v) ∧ LoadsReg 0 .X v s (s.setX v) ∧ LoadsReg 0 .Y v s (s.setY v)) ∧
    applyHost (.setA v) s = s.setA v ∧ applyHost (.setX v) s = s.setX v ∧ applyHost (.setY v) s = s.setY v

/-- The status register (R20, R22, R23): bits 0 to 7 are C Z I D B U V N, which is the spec's own inference in R20,
"This spec reads the list as bits 0 to 7 in order"; a getter reads its bit, a setter writes its bit alone and leaves U
at 1; a write of the whole register stores `v | 0x20`; the host's mutators do the same. -/
def Obligations.StatusAccessorsAndWrites : Prop :=
  (∀ p : Byte, [Flag.C, .Z, .I, .D, .B, .U, .V, .N].map (getFlag · p) = (List.range 8).map p.getLsbD) ∧
  (∀ f g b p, getFlag g (setFlag f b p) = if g = f then b || f == .U else getFlag g p) ∧
  (∀ (v : Byte) (s : State), (s.setP v).p.toNat = v.toNat ||| 0x20 ∧ RegsKept [] s (s.setP v) ∧
    MemKept s (s.setP v) ∧ (s.setP v).pc = s.pc) ∧
  ∀ (v : Byte) f b (s : State), applyHost (.setStatus v) s = s.setP v ∧
    applyHost (.setFlag f b) s = { s with p := setFlag f b s.p } ∧ (hostStatus s).toNat = s.p.toNat ||| 0x20

/-- The stack wraps within page 1 (R46, conflict C3): a push stores at 0x0100 + SP and SP moves down, after `k`
pushes by `k` mod 256, so 256 pushes restore it (the spec's own inference in R46), having written the whole page and
nothing else. -/
def Obligations.StackWrapsAfter256Pushes : Prop :=
  (∀ p : Byte, (stackAddr p).toNat = 0x0100 + p.toNat) ∧
  (∀ v s, MemStored (stackAddr s.sp) v s (push v s) ∧ (push v s).sp.toNat = (s.sp.toNat + 255) % 256 ∧
    memWrite (stackAddr s.sp) v s = .next { push v s with sp := s.sp }) ∧
  (∀ v s k, ((push v)^[k] s).sp = s.sp - BitVec.ofNat 8 k) ∧
  ∀ v s, ((push v)^[256] s).sp = s.sp ∧
    ∀ b : Word, memRead b ((push v)^[256] s) = if 0x0100 ≤ b.toNat ∧ b.toNat < 0x0200 then v else memRead b s

/-- The resolver (R88 to R97): the location of each mode from the bytes after PC, what reading and writing the
constant and accumulator locations does, the lengths (R87), and the opcodes that use `zp,Y`, `abs,Y` and the
accumulator. That no other opcode uses the accumulator is the spec's own inference: R97's "the other opcodes of the
accumulator cell (0x8A, 0xAA, 0xCA, 0xEA) are direct". -/
def Obligations.ResolverComputesEachMode : Prop :=
  (∀ s m o, operandOf m (fetchByte 1 s) (fetchByte 2 s) = some o → o.mode = m ∧ LocationOf m s (resolve o s)) ∧
  (∀ i v s, locRead (.const i) s = i ∧ locWrite (.const i) v s = .fault (.constantWrite i) ∧
    locRead .acc s = s.a ∧ locWrite .acc v s = .next (s.setA v)) ∧
  (∀ m : Mode, m ∉ [.implied, .relative, .indirect] → m.len =
    if m = .accumulator then 1 else if m ∈ [.absolute, .absoluteX, .absoluteY] then 3 else 2) ∧
  (∀ op, resolverMode op = some .zeroPageY ↔ op ∈ [0x96, 0x97, 0xB6, (0xB7 : Byte)]) ∧
  (∀ op, resolverMode op = some .absoluteY ↔
    (bbbOf op = 6 ∧ (ccOf op = 1 ∨ ccOf op = 3)) ∨ op ∈ [0xBE, (0xBF : Byte)]) ∧
  ∀ op, classOf op = .resolved ∧ resolverMode op = some .accumulator ↔ op ∈ [0x0A, 0x2A, 0x4A, (0x6A : Byte)]

/-- A store is seen by the next fetch of its address (R57). -/
def Obligations.StoreIsSeenByTheNextFetch : Prop :=
  ∀ i o s t, Instr.writes i = some o → exec i s = .next t → resolve o s = .mem t.pc →
    (i = .sta o → fetchByte 0 t = s.a) ∧ (i = .stx o → fetchByte 0 t = s.x) ∧ (i = .sty o → fetchByte 0 t = s.y) ∧
    (i = .sax o → fetchByte 0 t = s.a &&& s.x) ∧
    (i = .inc o → fetchByte 0 t = operandValue o s + 1) ∧ (i = .dec o → fetchByte 0 t = operandValue o s - 1)

/-! ## Group 01 -/

/-- ORA, AND and EOR (R142 to R144). -/
def Obligations.LogicalOperationsWriteA : Prop :=
  (∀ o s, Gives (.ora o) s (LoadsReg o.mode.len .A (s.a ||| operandValue o s) s) ∧
    Gives (.and o) s (LoadsReg o.mode.len .A (s.a &&& operandValue o s) s) ∧
    Gives (.eor o) s (LoadsReg o.mode.len .A (s.a ^^^ operandValue o s) s)) ∧
  OpcodesAre .ora [(0x01, .indexedIndirect), (0x05, .zeroPage), (0x09, .immediate), (0x0D, .absolute),
    (0x11, .indirectIndexed), (0x15, .zeroPageX), (0x19, .absoluteY), (0x1D, .absoluteX)] ∧
  OpcodesAre .and [(0x21, .indexedIndirect), (0x25, .zeroPage), (0x29, .immediate), (0x2D, .absolute),
    (0x31, .indirectIndexed), (0x35, .zeroPageX), (0x39, .absoluteY), (0x3D, .absoluteX)] ∧
  OpcodesAre .eor [(0x41, .indexedIndirect), (0x45, .zeroPage), (0x49, .immediate), (0x4D, .absolute),
    (0x51, .indirectIndexed), (0x55, .zeroPageX), (0x59, .absoluteY), (0x5D, .absoluteX)]

/-- LDA, LDX and LDY (R148, R155, R160). -/
def Obligations.LoadsWriteTheirRegister : Prop :=
  (∀ o s, Gives (.lda o) s (LoadsReg o.mode.len .A (operandValue o s) s) ∧
    Gives (.ldx o) s (LoadsReg o.mode.len .X (operandValue o s) s) ∧
    Gives (.ldy o) s (LoadsReg o.mode.len .Y (operandValue o s) s)) ∧
  OpcodesAre .lda [(0xA1, .indexedIndirect), (0xA5, .zeroPage), (0xA9, .immediate), (0xAD, .absolute),
    (0xB1, .indirectIndexed), (0xB5, .zeroPageX), (0xB9, .absoluteY), (0xBD, .absoluteX)] ∧
  OpcodesAre .ldx [(0xA2, .immediate), (0xA6, .zeroPage), (0xAE, .absolute), (0xB6, .zeroPageY), (0xBE, .absoluteY)] ∧
  OpcodesAre .ldy [(0xA0, .immediate), (0xA4, .zeroPage), (0xAC, .absolute), (0xB4, .zeroPageX), (0xBC, .absoluteX)]

/-- ADC (R145, R139), for every P: D is ignored. -/
def Obligations.AdcAddsWithCarry : Prop :=
  (∀ o s,
    let m := (operandValue o s).toNat
    let sum := s.a.toNat + m + (getFlag .C s.p).toNat
    Gives (.adc o) s fun t =>
      t.a.toNat = sum % 256 ∧ getFlag .C t.p = decide (0xFF < sum) ∧
      getFlag .V t.p = decide ((128 ≤ s.a.toNat ↔ 128 ≤ m) ∧ ¬(128 ≤ m ↔ 128 ≤ sum % 256)) ∧
      ZNOf t.a t ∧ PcPast o.mode.len s t ∧ RegsKept [.A] s t ∧ FlagsKept [.C, .V, .Z, .N] s t ∧ MemKept s t) ∧
  OpcodesAre .adc [(0x61, .indexedIndirect), (0x65, .zeroPage), (0x69, .immediate), (0x6D, .absolute),
    (0x71, .indirectIndexed), (0x75, .zeroPageX), (0x79, .absoluteY), (0x7D, .absoluteX)]

/-- SBC (R146, R140), for every P: D is ignored. -/
def Obligations.SbcSubtractsWithBorrow : Prop :=
  (∀ o s,
    let m := (operandValue o s).toNat
    let diff : Int := s.a.toNat - m - (1 - (getFlag .C s.p).toNat)
    Gives (.sbc o) s fun t =>
      (t.a.toNat : Int) = diff % 256 ∧ getFlag .C t.p = decide (0 ≤ diff) ∧
      getFlag .V t.p = decide (¬(128 ≤ s.a.toNat ↔ 128 ≤ m) ∧ ¬(128 ≤ s.a.toNat ↔ 128 ≤ diff % 256)) ∧
      ZNOf t.a t ∧ PcPast o.mode.len s t ∧ RegsKept [.A] s t ∧ FlagsKept [.C, .V, .Z, .N] s t ∧ MemKept s t) ∧
  OpcodesAre .sbc [(0xE1, .indexedIndirect), (0xE5, .zeroPage), (0xE9, .immediate), (0xED, .absolute),
    (0xF1, .indirectIndexed), (0xF5, .zeroPageX), (0xF9, .absoluteY), (0xFD, .absoluteX)]

/-- V after ADC and SBC is signed overflow (R20's "signed overflow"): the signed sum or difference, carry or borrow
included, is outside -128 to 127. It follows from R139 and R140, and the spec does not say it of every input. -/
def Obligations.OverflowIsSignedOverflow : Prop :=
  ∀ o s,
    let m := (operandValue o s).toInt
    let c : Int := (getFlag .C s.p).toNat
    Gives (.adc o) s (fun t => getFlag .V t.p = decide (s.a.toInt + m + c < -128 ∨ 127 < s.a.toInt + m + c)) ∧
    Gives (.sbc o) s fun t =>
      getFlag .V t.p = decide (s.a.toInt - m - (1 - c) < -128 ∨ 127 < s.a.toInt - m - (1 - c))

/-- SBC is ADC of the complemented operand, in result and every flag (R140's derived remark). -/
def Obligations.SbcIsAdcOfTheComplement : Prop :=
  ∀ (n : Byte) (s : State), exec (.sbc (.imm n)) s = exec (.adc (.imm (~~~n))) s

/-- CMP, CPX and CPY (R149, R162, R161, R141). -/
def Obligations.ComparesSetOnlyFlags : Prop :=
  CompareIs .cmp .A ∧ CompareIs .cpx .X ∧ CompareIs .cpy .Y ∧
  OpcodesAre .cmp [(0xC1, .indexedIndirect), (0xC5, .zeroPage), (0xC9, .immediate), (0xCD, .absolute),
    (0xD1, .indirectIndexed), (0xD5, .zeroPageX), (0xD9, .absoluteY), (0xDD, .absoluteX)] ∧
  OpcodesAre .cpx [(0xE0, .immediate), (0xE4, .zeroPage), (0xEC, .absolute)] ∧
  OpcodesAre .cpy [(0xC0, .immediate), (0xC4, .zeroPage), (0xCC, .absolute)]

/-- STA, STX, STY and SAX (R147, R154, R159, R163, R164). That SAX changes no flag is the spec's own inference: R163's
"so no flag changes". The immediate operand is a form of SAX alone (0x8B, R164); of STA, STX and STY, which have none,
the constant clause speaks of ill-formed terms and is the model's choice (notes/assumptions/13.md). -/
def Obligations.StoresWriteOneByte : Prop :=
  StoreIs .sta (·.a) ∧ StoreIs .stx (·.x) ∧ StoreIs .sty (·.y) ∧ StoreIs .sax (fun s => s.a &&& s.x) ∧
  OpcodesAre .sta [(0x81, .indexedIndirect), (0x85, .zeroPage), (0x8D, .absolute),
    (0x91, .indirectIndexed), (0x95, .zeroPageX), (0x99, .absoluteY), (0x9D, .absoluteX)] ∧
  OpcodesAre .stx [(0x86, .zeroPage), (0x8E, .absolute), (0x96, .zeroPageY), (0x9E, .absoluteX)] ∧
  OpcodesAre .sty [(0x84, .zeroPage), (0x8C, .absolute), (0x94, .zeroPageX), (0x9C, .absoluteX)] ∧
  OpcodesAre .sax [(0x83, .indexedIndirect), (0x87, .zeroPage), (0x8F, .absolute), (0x97, .zeroPageY),
    (0x93, .indirectIndexed), (0x9B, .absoluteY), (0x9F, .absoluteX), (0x8B, .immediate)]

/-! ## Groups 10 and 00 -/

/-- ASL, ROL, LSR and ROR (R150 to R153), in the accumulator and in memory; the immediate cells fault (R71). -/
def Obligations.ShiftsAndRotatesModifyTheirLocation : Prop :=
  ModifyIs .asl (fun m _ => 2 * m) [.C, .Z, .N] (CarryIs (· / 128)) ∧
  ModifyIs .rol (fun m c => 2 * m + c) [.C, .Z, .N] (CarryIs (· / 128)) ∧
  ModifyIs .lsr (fun m _ => m / 2) [.C, .Z, .N] (CarryIs (· % 2)) ∧
  ModifyIs .ror (fun m c => m / 2 + 128 * c) [.C, .Z, .N] (CarryIs (· % 2)) ∧
  OpcodesAre .asl [(0x0A, .accumulator), (0x06, .zeroPage), (0x0E, .absolute), (0x16, .zeroPageX),
    (0x1E, .absoluteX), (0x02, .immediate)] ∧
  OpcodesAre .rol [(0x2A, .accumulator), (0x26, .zeroPage), (0x2E, .absolute), (0x36, .zeroPageX),
    (0x3E, .absoluteX), (0x22, .immediate)] ∧
  OpcodesAre .lsr [(0x4A, .accumulator), (0x46, .zeroPage), (0x4E, .absolute), (0x56, .zeroPageX),
    (0x5E, .absoluteX), (0x42, .immediate)] ∧
  OpcodesAre .ror [(0x6A, .accumulator), (0x66, .zeroPage), (0x6E, .absolute), (0x76, .zeroPageX),
    (0x7E, .absoluteX), (0x62, .immediate)]

/-- DEC and INC (R156, R157): C and V unchanged. They have memory forms alone; the accumulator and constant clauses of
`ModifyIs` speak here of ill-formed terms and are the model's choice (notes/assumptions/13.md). -/
def Obligations.DecIncModifyMemory : Prop :=
  ModifyIs .dec (fun m _ => m + 255) [.Z, .N] (fun _ _ => True) ∧
  ModifyIs .inc (fun m _ => m + 1) [.Z, .N] (fun _ _ => True) ∧
  OpcodesAre .dec [(0xC6, .zeroPage), (0xCE, .absolute), (0xD6, .zeroPageX), (0xDE, .absoluteX)] ∧
  OpcodesAre .inc [(0xE6, .zeroPage), (0xEE, .absolute), (0xF6, .zeroPageX), (0xFE, .absoluteX)]

/-- BIT (R158): Z from A AND the operand, N and V from the operand's bits 7 and 6, never from A. -/
def Obligations.BitTestsTheOperand : Prop :=
  (∀ o s,
    let m := operandValue o s
    Gives (.bit o) s fun t =>
      getFlag .Z t.p = decide ((s.a &&& m).toNat = 0) ∧ getFlag .N t.p = decide (128 ≤ m.toNat) ∧
      getFlag .V t.p = decide (m.toNat / 64 % 2 = 1) ∧ OnlyFlags o.mode.len [.Z, .N, .V] s t) ∧
  OpcodesAre .bit [(0x24, .zeroPage), (0x2C, .absolute)]

/-! ## Implied instructions, gaps and no-ops -/

/-- TAX, TXA, TAY, TYA and TSX set Z and N; TXS sets no flag (R116 to R121). -/
def Obligations.TransfersCopyARegister : Prop :=
  ImpliedIs .tax 0xAA 2 (fun s => LoadsReg 1 .X s.a s) ∧ ImpliedIs .txa 0x8A 2 (fun s => LoadsReg 1 .A s.x s) ∧
  ImpliedIs .tay 0xA8 2 (fun s => LoadsReg 1 .Y s.a s) ∧ ImpliedIs .tya 0x98 2 (fun s => LoadsReg 1 .A s.y s) ∧
  ImpliedIs .tsx 0xBA 2 (fun s => LoadsReg 1 .X s.sp s) ∧
  ImpliedIs .txs 0x9A 2 fun s t => t.sp = s.x ∧ PcPast 1 s t ∧ RegsKept [.SP] s t ∧ FlagsKept [] s t ∧ MemKept s t

/-- CLC, SEC, CLI, SEI, CLV, CLD and SED (R122 to R128): one flag, nothing else. -/
def Obligations.FlagInstructionsWriteOneFlag : Prop :=
  let sets := fun f b s t => getFlag f t.p = b ∧ OnlyFlags 1 [f] s t
  ImpliedIs .clc 0x18 2 (sets .C false) ∧ ImpliedIs .sec 0x38 2 (sets .C true) ∧
  ImpliedIs .cli 0x58 2 (sets .I false) ∧ ImpliedIs .sei 0x78 2 (sets .I true) ∧
  ImpliedIs .clv 0xB8 2 (sets .V false) ∧ ImpliedIs .cld 0xD8 2 (sets .D false) ∧
  ImpliedIs .sed 0xF8 2 (sets .D true)

/-- INX, INY, DEX and DEY (R133 to R136), mod 2^8. -/
def Obligations.IndexCountingWraps : Prop :=
  ImpliedIs .inx 0xE8 2 (fun s => LoadsReg 1 .X (BitVec.ofNat 8 (s.x.toNat + 1)) s) ∧
  ImpliedIs .iny 0xC8 2 (fun s => LoadsReg 1 .Y (BitVec.ofNat 8 (s.y.toNat + 1)) s) ∧
  ImpliedIs .dex 0xCA 2 (fun s => LoadsReg 1 .X (BitVec.ofNat 8 (s.x.toNat + 255)) s) ∧
  ImpliedIs .dey 0x88 2 (fun s => LoadsReg 1 .Y (BitVec.ofNat 8 (s.y.toNat + 255)) s)

/-- PHA and PHP (R129, R130): one byte at 0x0100 + SP, SP down by one; PHP pushes P with Break set and leaves P. -/
def Obligations.PushesStoreAtTheStackPointer : Prop :=
  let pushes := fun (v s t : _) => MemStored (stackAddr s.sp) v s t ∧ t.sp.toNat = (s.sp.toNat + 255) % 256 ∧
    PcPast 1 s t ∧ RegsKept [.SP] s t ∧ FlagsKept [] s t
  ImpliedIs .pha 0x48 3 (fun s => pushes s.a s) ∧
  ImpliedIs .php 0x08 3 fun s => pushes (BitVec.ofNat 8 (s.p.toNat ||| 0x10)) s

/-- PLA and PLP (R131, R132): the byte above the stack pointer; PLP clears B and sets U. -/
def Obligations.PullsReadAboveTheStackPointer : Prop :=
  let pulled := fun s => memRead (stackAddr (s.sp + 1)) s
  let common := fun (s t : State) => t.sp.toNat = (s.sp.toNat + 1) % 256 ∧ PcPast 1 s t ∧ MemKept s t
  ImpliedIs .pla 0x68 4 (fun s t => common s t ∧ t.a = pulled s ∧ ZNOf (pulled s) t ∧ RegsKept [.A, .SP] s t ∧
    FlagsKept [.Z, .N] s t) ∧
  ImpliedIs .plp 0x28 4 fun s t => common s t ∧ RegsKept [.SP] s t ∧ getFlag .B t.p = false ∧ getFlag .U t.p = true ∧
    ∀ f, f ≠ .B → f ≠ .U → getFlag f t.p = getFlag f (pulled s)

/-- NOP (R137) and the 27 inert opcodes (R138): PC past the instruction, by the length of its mode, nothing else. -/
def Obligations.NopsOnlyAdvancePC : Prop :=
  ImpliedIs .nop 0xEA 2 (OnlyFlags 1 []) ∧
  (∀ op arg s, Gives (.nopInert op arg) s (OnlyFlags (argMode arg).len [] s)) ∧
  (∀ op m, (op, m) ∈ inertRows → ∀ b1 b2 s, decodeInstr op b1 b2 = .nopInert op (operandOf m b1 b2) ∧
    argMode (operandOf m b1 b2) = m ∧ cyclesOf (decodeInstr op b1 b2) s =
      if m ∈ [.implied, .immediate] then 2 else if m = .zeroPage then 3 else 4) ∧
  ∀ op, classOf op = .inert ↔ op ∈ inertRows.map Prod.fst

/-- The eight decode gaps (R70, R81): PC by one, nothing else, and the step returns GAP_CYCLES, 2 by default. -/
def Obligations.GapsOnlyAdvancePC : Prop :=
  (∀ op s, Gives (.gap op) s (OnlyFlags 1 [] s)) ∧
  (∀ op, op ∈ gapRows ↔ ∃ b1 b2, decodeInstr op b1 b2 = .gap op) ∧
  ∀ op table n s, cyclesWith table n (.gap op) s = n ∧ cyclesOf (.gap op) s = 2

/-- The no-op tags of group 11 (R165 to R171): PC by the mode's length, nothing else; never a fault; and the opcodes
and modes of each tag. -/
def Obligations.Group11TagsOnlyAdvancePC : Prop :=
  (∀ op, IgnoresOperand (.anc op) ∧ IgnoresOperand (.las op)) ∧ IgnoresOperand .alr ∧ IgnoresOperand .arr ∧
  IgnoresOperand .axs ∧ IgnoresOperand .sbcUndoc ∧
  DecodesAre .anc [(0x03, .indexedIndirect), (0x07, .zeroPage), (0x0B, .immediate), (0x0F, .absolute),
    (0x13, .indirectIndexed), (0x17, .zeroPageX), (0x1B, .absoluteY), (0x1F, .absoluteX),
    (0x23, .indexedIndirect), (0x27, .zeroPage), (0x2B, .immediate), (0x2F, .absolute),
    (0x33, .indirectIndexed), (0x37, .zeroPageX), (0x3B, .absoluteY), (0x3F, .absoluteX)] ∧
  DecodesAre .las [(0xA3, .indexedIndirect), (0xA7, .zeroPage), (0xAB, .immediate), (0xAF, .absolute),
    (0xB3, .indirectIndexed), (0xB7, .zeroPageY), (0xBB, .absoluteY), (0xBF, .absoluteY)] ∧
  OpcodesAre .alr [(0x43, .indexedIndirect), (0x47, .zeroPage), (0x4B, .immediate), (0x4F, .absolute),
    (0x53, .indirectIndexed), (0x57, .zeroPageX), (0x5B, .absoluteY), (0x5F, .absoluteX)] ∧
  OpcodesAre .arr [(0x63, .indexedIndirect), (0x67, .zeroPage), (0x6B, .immediate), (0x6F, .absolute),
    (0x73, .indirectIndexed), (0x77, .zeroPageX), (0x7B, .absoluteY), (0x7F, .absoluteX)] ∧
  OpcodesAre .axs [(0xC3, .indexedIndirect), (0xC7, .zeroPage), (0xCB, .immediate), (0xCF, .absolute),
    (0xD3, .indirectIndexed), (0xD7, .zeroPageX), (0xDB, .absoluteY), (0xDF, .absoluteX)] ∧
  OpcodesAre .sbcUndoc [(0xE3, .indexedIndirect), (0xE7, .zeroPage), (0xEB, .immediate), (0xEF, .absolute),
    (0xF3, .indirectIndexed), (0xF7, .zeroPageX), (0xFB, .absoluteY), (0xFF, .absoluteX)]

/-! ## Control transfer -/

/-- JMP absolute and indirect (R101, R102): the indirect high byte comes from the page of the low byte. -/
def Obligations.JumpsLoadPC : Prop :=
  ∀ (w : Word) (s : State),
    let kept := fun t => RegsKept [] s t ∧ FlagsKept [] s t ∧ MemKept s t
    encode (.jmp (.abs w)) = [0x4C, lo w, hi w] ∧ cyclesOf (.jmp (.abs w)) s = 3 ∧
    Gives (.jmp (.abs w)) s (fun t => t.pc = w ∧ kept t) ∧
    encode (.jmp (.ind w)) = [0x6C, lo w, hi w] ∧ cyclesOf (.jmp (.ind w)) s = 5 ∧
    Gives (.jmp (.ind w)) s fun t => kept t ∧
      t.pc.toNat = byteAt w.toNat s + 256 * byteAt (w.toNat / 256 * 256 + (w.toNat + 1) % 256) s

/-- JSR (R103): the address of its last byte pushed, high byte first, and PC at the target. -/
def Obligations.JsrPushesItsLastByte : Prop :=
  ∀ (w : Word) (s : State),
    let ret := (s.pc.toNat + 2) % 2 ^ 16
    encode (.jsr w) = [0x20, lo w, hi w] ∧ cyclesOf (.jsr w) s = 6 ∧
    Gives (.jsr w) s fun t =>
      t.pc = w ∧ t.sp.toNat = (s.sp.toNat + 254) % 256 ∧ RegsKept [.SP] s t ∧ FlagsKept [] s t ∧
      ∀ b, memRead b t =
        if b = stackAddr s.sp then BitVec.ofNat 8 (ret / 256)
        else if b = stackAddr (s.sp - 1) then BitVec.ofNat 8 ret
        else memRead b s

/-- RTS (R104): the pulled address, low byte first, plus 1. -/
def Obligations.RtsPullsAndAddsOne : Prop :=
  ImpliedIs .rts 0x60 6 fun s t =>
    t.pc.toNat = ((memRead (stackAddr (s.sp + 1)) s).toNat + 256 * (memRead (stackAddr (s.sp + 2)) s).toNat + 1) % 2 ^ 16 ∧
    t.sp.toNat = (s.sp.toNat + 2) % 256 ∧ RegsKept [.SP] s t ∧ FlagsKept [] s t ∧ MemKept s t

/-- BRK (R106, R181): `pc + 2` and `P | 0x30` saved on the stack, I set, PC from the vector at 0xFFFE. -/
def Obligations.BrkTakesTheTrap : Prop :=
  ImpliedIs .brk 0x00 7 fun s t =>
    let ret := (s.pc.toNat + 2) % 2 ^ 16
    t.pc.toNat = byteAt 0xFFFE s + 256 * byteAt 0xFFFF s ∧ t.sp.toNat = (s.sp.toNat + 253) % 256 ∧
    getFlag .I t.p = true ∧ RegsKept [.SP] s t ∧ FlagsKept [.I] s t ∧
    ∀ b, memRead b t =
      if b = stackAddr s.sp then BitVec.ofNat 8 (ret / 256)
      else if b = stackAddr (s.sp - 1) then BitVec.ofNat 8 ret
      else if b = stackAddr (s.sp - 2) then BitVec.ofNat 8 (s.p.toNat ||| 0x30)
      else memRead b s

/-- RTI (R105, R182): P pulled with B cleared and U set, then PC, low byte first, with nothing added. -/
def Obligations.RtiRestoresStatusAndPC : Prop :=
  ImpliedIs .rti 0x40 6 fun s t =>
    t.pc.toNat = (memRead (stackAddr (s.sp + 2)) s).toNat + 256 * (memRead (stackAddr (s.sp + 3)) s).toNat ∧
    t.sp.toNat = (s.sp.toNat + 3) % 256 ∧ getFlag .B t.p = false ∧ getFlag .U t.p = true ∧
    (∀ f, f ≠ .B → f ≠ .U → getFlag f t.p = getFlag f (memRead (stackAddr (s.sp + 1)) s)) ∧
    RegsKept [.SP] s t ∧ MemKept s t

/-- The eight branches (R107 to R115) with their cycle counts. -/
def Obligations.BranchesFollowTheirFlag : Prop :=
  BranchIs .bpl 0x10 .N false ∧ BranchIs .bmi 0x30 .N true ∧ BranchIs .bvc 0x50 .V false ∧ BranchIs .bvs 0x70 .V true ∧
  BranchIs .bcc 0x90 .C false ∧ BranchIs .bcs 0xB0 .C true ∧ BranchIs .bne 0xD0 .Z false ∧ BranchIs .beq 0xF0 .Z true

/-- An RTS run with the stack a JSR left returns past the JSR, with SP, registers and flags as before it
(R103, R104). -/
def Obligations.RtsReturnsPastTheJsr : Prop :=
  ∀ (w : Word) (s : State), Gives (.jsr w) s fun t => Gives .rts t fun u =>
    PcPast 3 s u ∧ RegsKept [] s u ∧ FlagsKept [] s u

/-- An RTI run with the stack a BRK left returns past the BRK's padding byte with SP, registers and flags as before
it, B cleared and U set (R181, R182). -/
def Obligations.RtiReturnsPastTheBrk : Prop :=
  ∀ s : State, Gives .brk s fun t => Gives .rti t fun u =>
    PcPast 2 s u ∧ RegsKept [] s u ∧ FlagsKept [.B, .U] s u ∧ getFlag .B u.p = false ∧ getFlag .U u.p = true

/-! ## Rules about the whole machine -/

/-- Whenever a step changes A, X or Y, Z and N describe the new value (R17, L1.1). -/
def Obligations.ChangedRegisterHasItsZN : Prop :=
  ∀ s t, step s = .next t →
    (t.a ≠ s.a → ZNOf t.a t) ∧ (t.x ≠ s.x → ZNOf t.x t) ∧ (t.y ≠ s.y → ZNOf t.y t)

/-- A flag changes only by the instructions its rule lists (R24 to R30). -/
def Obligations.FlagsChangeOnlyByListedInstructions : Prop :=
  ∀ i s t f, i.WellFormed = true → exec i s = .next t → f ∉ flagsWritten i → getFlag f t.p = getFlag f s.p

/-- A, X, Y and SP change only by the instructions their rules list (R12 to R15). -/
def Obligations.RegistersChangeOnlyByListedInstructions : Prop :=
  ∀ i s t r, i.WellFormed = true → exec i s = .next t → r ∉ regsWritten i → getReg r t = getReg r s

/-- A byte of memory changes only where the instruction writes its operand's location or pushes (R51, R52). -/
def Obligations.MemoryChangesOnlyWhereWritten : Prop :=
  ∀ i s t b, exec i s = .next t → memRead b t ≠ memRead b s →
    (∃ o, Instr.writes i = some o ∧ resolve o s = .mem b) ∨ b ∈ stackBytes i s

/-- I, D and B steer no instruction: with such a flag changed, every instruction but PHP and BRK, which copy P to
the stack, does the same to everything else (R26, R27, R28). -/
def Obligations.FlagsIDBAreOnlyCopied : Prop :=
  ∀ (i : Instr) (s : State) (f : Flag) (b : Bool), f ∈ [Flag.I, .D, .B] → i ≠ .php → i ≠ .brk →
    match exec i s with
    | .next t => Gives i (s.setFlag f b) (AgreeBut f t)
    | .fault r => exec i (s.setFlag f b) = .fault r
    | .refused r => exec i (s.setFlag f b) = .refused r

/-! ## Cycle counts and the block's life -/

/-- No state depends on a cycle count (R200): under any CYCLE_TABLE and GAP_CYCLES a step leaves the same state or
raises the same fault. -/
def Obligations.CycleCountsAreOutputOnly : Prop :=
  ∀ table gap s,
    (∀ t, step s = .next t ↔ ∃ c, stepTimedWith table gap s = .next (t, c)) ∧
    (∀ f, step s = .fault f ↔ stepTimedWith table gap s = .fault f)

/-- The count of every instruction but a branch or a gap is its opcode's, whatever the state: no page crossing adds
to it (R100, R199). -/
def Obligations.CycleCountIgnoresPageCrossing : Prop :=
  ∀ (s t : State) (c : Nat), stepTimed s = .next (t, c) → isBranch (fetchInstr s) = false →
    classOf (fetchByte 0 s) ≠ .gap → c = cycleTable (fetchByte 0 s) ∧ 2 ≤ c ∧ c ≤ 8

/-- The host must not step a block after a fatal step (R85), no step is defined after teardown, and a second teardown
has no effect (R195). That such a step is refused and that a stopped block keeps no state is the model's own
(notes/assumptions/12.md, DEDUCED). -/
def Obligations.StoppedBlocksRefuseToStep : Prop :=
  (∀ s f, step s = .fault f → Block.step (.live s) = .ok (.stopped f)) ∧
  (∀ s t, step s = .next t → Block.step (.live s) = .ok (.live t)) ∧
  (∀ f, Block.step (.stopped f) = .error .afterFatal) ∧
  ∀ b : Block, Block.step b.teardown = .error .tornDown ∧ b.teardown.teardown = b.teardown
end

