-- ==== Sys2Proof/Laws/Flags.lean ====
section
/-! SUPPORT. Flag getters after flag setters, and the ALU cores in terms of unbounded integers. -/

namespace Sys2Proof.Machine

/-- A getter after a setter: U always reads 1 after it is set, any other flag reads what was stored, and the
other flags are unchanged (R23). -/
theorem getFlag_setFlag (f g : Flag) (b : Bool) (p : Byte) :
    getFlag f (setFlag g b p) = if f = g then (b || g == .U) else getFlag f p := by
  cases g <;> cases b <;> cases f <;>
    simp [getFlag, setFlag, Flag.mask, Flag.bit]

/-- The flags after Z and N are set from a result (R17). -/
theorem getFlag_setZN (f : Flag) (r p : Byte) :
    getFlag f (setZN r p) = if f = .Z then r == 0 else if f = .N then r.getLsbD 7 else getFlag f p := by
  cases f <;> simp [setZN, getFlag_setFlag]

theorem getFlag_setCmp (f : Flag) (a m p : Byte) :
    getFlag f (setCmp a m p) =
      if f = .C then decide (m.toNat ≤ a.toNat) else if f = .Z then BitVec.ofInt 8 ((a.toNat : Int) - m.toNat) == 0
      else if f = .N then (BitVec.ofInt 8 ((a.toNat : Int) - m.toNat)).getLsbD 7 else getFlag f p := by
  cases f <;> simp [setCmp, getFlag_setZN, getFlag_setFlag]

theorem getFlag_setShift (f : Flag) (o : ShiftOut) (p : Byte) :
    getFlag f (setShift o p) =
      if f = .C then o.c else if f = .Z then o.r == 0 else if f = .N then o.r.getLsbD 7 else getFlag f p := by
  cases f <;> simp [setShift, getFlag_setZN, getFlag_setFlag]

theorem getFlag_setBit (f : Flag) (a m p : Byte) :
    getFlag f (setBit a m p) =
      if f = .Z then a &&& m == 0 else if f = .N then m.getLsbD 7 else if f = .V then m.getLsbD 6 else getFlag f p := by
  cases f <;> simp [setBit, getFlag_setFlag]

/-- U of a byte stored into P is 1 (R21, R22). -/
@[simp] theorem getFlag_U_statusValue (v : Byte) : getFlag .U (statusValue v) = true := by
  simp [getFlag, statusValue, unusedMask, Flag.bit]

/-- No flag setter clears U (R23). -/
theorem getFlag_U_setFlag {f : Flag} {b : Bool} {p : Byte} (h : getFlag .U p = true) :
    getFlag .U (setFlag f b p) = true := by
  rw [getFlag_setFlag]; split <;> simp_all

@[simp] theorem getFlag_U_setZN (r p : Byte) : getFlag .U (setZN r p) = getFlag .U p := by simp [getFlag_setZN]

@[simp] theorem getFlag_U_setCmp (a m p : Byte) : getFlag .U (setCmp a m p) = getFlag .U p := by simp [getFlag_setCmp]

@[simp] theorem getFlag_U_setShift (o : ShiftOut) (p : Byte) : getFlag .U (setShift o p) = getFlag .U p := by
  simp [getFlag_setShift]

@[simp] theorem getFlag_U_setBit (a m p : Byte) : getFlag .U (setBit a m p) = getFlag .U p := by simp [getFlag_setBit]

/-- Two bytes with the same eight flags are the same byte. -/
theorem eq_of_getFlag {p q : Byte} (h : ∀ f, getFlag f p = getFlag f q) : p = q := by
  apply BitVec.eq_of_getLsbD_eq
  intro i hi
  have h0 := h .C; have h1 := h .Z; have h2 := h .I; have h3 := h .D
  have h4 := h .B; have h5 := h .U; have h6 := h .V; have h7 := h .N
  simp only [getFlag, Flag.bit] at h0 h1 h2 h3 h4 h5 h6 h7
  interval_cases i <;> assumption

end Sys2Proof.Machine
end

