-- ==== Sys2Proof/Laws/Memory.lean ====
section
/-! SUPPORT. The byte store: a read after a write, the canonical form kept by every operation, equal reads make
equal stores, and the store of a byte list. -/

namespace Sys2Proof.Machine

/-! ## Reads -/

@[simp] theorem Memory.read_nil (a : Nat) : Memory.read [] a = Memory.unlisted := rfl

theorem Memory.read_cons (k : Nat) (v : Byte) (m : Memory) (a : Nat) :
    Memory.read ((k, v) :: m) a = if k = a then v else Memory.read m a := rfl

theorem Memory.erase_cons (k : Nat) (v : Byte) (m : Memory) (a : Nat) :
    Memory.erase ((k, v) :: m) a = if k = a then Memory.erase m a else (k, v) :: Memory.erase m a := by
  by_cases h : k = a <;> simp [Memory.erase, h]

theorem Memory.read_erase (m : Memory) (a b : Nat) :
    Memory.read (Memory.erase m a) b = if b = a then Memory.unlisted else Memory.read m b := by
  induction m with
  | nil => simp [Memory.erase]
  | cons c m ih =>
    obtain ⟨k, v⟩ := c
    rw [Memory.erase_cons]
    by_cases hk : k = a
    · rw [if_pos hk, ih, Memory.read_cons]
      by_cases hb : b = a
      · rw [if_pos hb, if_pos hb]
      · rw [if_neg hb, if_neg hb, if_neg (by omega)]
    · rw [if_neg hk, Memory.read_cons, Memory.read_cons, ih]
      by_cases hb : b = a
      · subst hb; simp [hk]
      · rw [if_neg hb, if_neg hb]

theorem Memory.erase_keys {m : Memory} {a : Nat} : ∀ c ∈ Memory.erase m a, c.1 ≠ a := by
  intro c hc
  have := (List.mem_filter.mp hc).2
  simpa using this

theorem Memory.read_insert {m : Memory} {a : Nat} (v : Byte) (hm : ∀ c ∈ m, c.1 ≠ a) (b : Nat) :
    Memory.read (Memory.insert m a v) b = if b = a then v else Memory.read m b := by
  induction m with
  | nil => simp [Memory.insert, Memory.read_cons, eq_comm]
  | cons c m ih =>
    obtain ⟨k, w⟩ := c
    have hk : k ≠ a := hm (k, w) (by simp)
    unfold Memory.insert
    split
    · simp [Memory.read_cons, eq_comm]
    · rw [Memory.read_cons, Memory.read_cons, ih fun c hc => hm c (by simp [hc])]
      by_cases hb : b = a
      · rw [if_neg (by omega), if_pos hb, if_pos hb]
      · rw [if_neg hb, if_neg hb]

/-- A read after a write, for every store, in canonical form or not. -/
theorem Memory.read_write (m : Memory) (a : Nat) (v : Byte) (b : Nat) :
    Memory.read (Memory.write m a v) b = if b = a then v else Memory.read m b := by
  unfold Memory.write
  split
  · rename_i hv
    rw [Memory.read_erase, hv]
  · rw [Memory.read_insert v Memory.erase_keys, Memory.read_erase]
    by_cases hb : b = a <;> simp [hb]

@[simp] theorem Memory.read_write_self (m : Memory) (a : Nat) (v : Byte) :
    Memory.read (Memory.write m a v) a = v := by simp [Memory.read_write]

theorem Memory.read_write_of_ne (m : Memory) {a b : Nat} (v : Byte) (h : b ≠ a) :
    Memory.read (Memory.write m a v) b = Memory.read m b := by simp [Memory.read_write, h]

/-! ## The canonical form and the bound -/

theorem Memory.wf_iff {m : Memory} :
    Memory.wf m = true ↔ m.Pairwise (fun c d => c.1 < d.1) ∧ ∀ c ∈ m, c.2 ≠ Memory.unlisted := by
  simp [Memory.wf]

theorem Memory.below_iff {m : Memory} {n : Nat} : Memory.below m n = true ↔ ∀ c ∈ m, c.1 < n := by
  simp [Memory.below]

@[simp] theorem Memory.wf_nil : Memory.wf [] = true := rfl

@[simp] theorem Memory.below_nil (n : Nat) : Memory.below [] n = true := rfl

theorem Memory.mem_insert {m : Memory} {a : Nat} {v : Byte} {c : Host.Cell} :
    c ∈ Memory.insert m a v ↔ c = (a, v) ∨ c ∈ m := by
  induction m with
  | nil => simp [Memory.insert]
  | cons d m ih =>
    obtain ⟨k, w⟩ := d
    unfold Memory.insert
    split
    · simp
    · simp only [List.mem_cons, ih]; tauto

theorem Memory.pairwise_insert {m : Memory} {a : Nat} {v : Byte}
    (h : m.Pairwise fun c d => c.1 < d.1) (ha : ∀ c ∈ m, c.1 ≠ a) :
    (Memory.insert m a v).Pairwise fun c d => c.1 < d.1 := by
  induction m with
  | nil => simp [Memory.insert]
  | cons d m ih =>
    obtain ⟨k, w⟩ := d
    rw [List.pairwise_cons] at h
    have hk : k ≠ a := ha (k, w) (by simp)
    unfold Memory.insert
    split
    · rename_i hlt
      refine List.pairwise_cons.mpr ⟨fun c hc => ?_, List.pairwise_cons.mpr h⟩
      rcases List.mem_cons.mp hc with rfl | hc
      · exact hlt
      · exact lt_trans hlt (h.1 c hc)
    · refine List.pairwise_cons.mpr ⟨fun c hc => ?_, ih h.2 fun c hc => ha c (by simp [hc])⟩
      rcases Memory.mem_insert.mp hc with rfl | hc
      · show k < a; omega
      · exact h.1 c hc

theorem Memory.wf_erase {m : Memory} (a : Nat) (h : Memory.wf m = true) : Memory.wf (Memory.erase m a) = true := by
  rw [Memory.wf_iff] at h ⊢
  exact ⟨h.1.filter _, fun c hc => h.2 c (List.mem_filter.mp hc).1⟩

/-- A write keeps the canonical form. -/
theorem Memory.wf_write {m : Memory} (a : Nat) (v : Byte) (h : Memory.wf m = true) :
    Memory.wf (Memory.write m a v) = true := by
  have he := Memory.wf_erase a h
  unfold Memory.write
  split
  · exact he
  · rename_i hv
    rw [Memory.wf_iff] at he ⊢
    refine ⟨Memory.pairwise_insert he.1 Memory.erase_keys, fun c hc => ?_⟩
    rcases Memory.mem_insert.mp hc with rfl | hc
    · exact hv
    · exact he.2 c hc

/-- A write below the bound keeps every address below it. -/
theorem Memory.below_write {m : Memory} {n a : Nat} (v : Byte) (h : Memory.below m n = true) (ha : a < n) :
    Memory.below (Memory.write m a v) n = true := by
  rw [Memory.below_iff] at h ⊢
  have he : ∀ c ∈ Memory.erase m a, c.1 < n := fun c hc => h c (List.mem_filter.mp hc).1
  unfold Memory.write
  split
  · exact he
  · intro c hc
    rcases Memory.mem_insert.mp hc with rfl | hc
    · exact ha
    · exact he c hc

/-! ## Equal reads make equal stores -/

theorem Memory.read_of_all_above {m : Memory} {a : Nat} (h : ∀ c ∈ m, a < c.1) :
    Memory.read m a = Memory.unlisted := by
  induction m with
  | nil => rfl
  | cons c m ih =>
    obtain ⟨k, v⟩ := c
    have hk : a < k := h (k, v) (by simp)
    rw [Memory.read_cons, if_neg (by omega), ih fun c hc => h c (by simp [hc])]

/-- Two stores in canonical form that read the same everywhere are the same store. -/
theorem Memory.ext_of_read {m n : Memory} (hm : Memory.wf m = true) (hn : Memory.wf n = true)
    (h : ∀ a, Memory.read m a = Memory.read n a) : m = n := by
  rw [Memory.wf_iff] at hm hn
  induction m generalizing n with
  | nil =>
    cases n with
    | nil => rfl
    | cons d n =>
      obtain ⟨k, v⟩ := d
      have := h k
      simp only [Memory.read_nil, Memory.read_cons, if_true] at this
      exact absurd this.symm (hn.2 (k, v) (by simp))
  | cons c m ih =>
    obtain ⟨k, v⟩ := c
    have hm' := List.pairwise_cons.mp hm.1
    cases n with
    | nil =>
      have := h k
      simp only [Memory.read_nil, Memory.read_cons, if_true] at this
      exact absurd this (hm.2 (k, v) (by simp))
    | cons d n =>
      obtain ⟨l, w⟩ := d
      have hn' := List.pairwise_cons.mp hn.1
      have hkl : k = l := by
        rcases Nat.lt_trichotomy k l with hlt | heq | hgt
        · have := h k
          rw [Memory.read_cons, if_pos rfl, Memory.read_of_all_above (m := (l, w) :: n)] at this
          · exact absurd this (hm.2 (k, v) (by simp))
          · intro c hc
            rcases List.mem_cons.mp hc with rfl | hc
            · exact hlt
            · exact lt_trans hlt (hn'.1 c hc)
        · exact heq
        · have := h l
          rw [Memory.read_cons (k := l), if_pos rfl, Memory.read_of_all_above (m := (k, v) :: m)] at this
          · exact absurd this.symm (hn.2 (l, w) (by simp))
          · intro c hc
            rcases List.mem_cons.mp hc with rfl | hc
            · exact hgt
            · exact lt_trans hgt (hm'.1 c hc)
      subst hkl
      have hvw : v = w := by simpa [Memory.read_cons] using h k
      subst hvw
      have : m = n := by
        refine ih ⟨hm'.2, fun c hc => hm.2 c (by simp [hc])⟩ ⟨hn'.2, fun c hc => hn.2 c (by simp [hc])⟩ fun a => ?_
        by_cases ha : k = a
        · subst ha
          rw [Memory.read_of_all_above hm'.1, Memory.read_of_all_above hn'.1]
        · simpa [Memory.read_cons, ha] using h a
      rw [this]

/-! ## The store of a byte list -/

theorem Memory.ofBytes_keys {k : Nat} {bs : List Byte} :
    ∀ c ∈ Memory.ofBytes k bs, k ≤ c.1 ∧ c.1 < k + bs.length ∧ c.2 ≠ Memory.unlisted := by
  induction bs generalizing k with
  | nil => simp [Memory.ofBytes]
  | cons v vs ih =>
    intro c hc
    unfold Memory.ofBytes at hc
    have tail : c ∈ Memory.ofBytes (k + 1) vs →
        k ≤ c.1 ∧ c.1 < k + (v :: vs).length ∧ c.2 ≠ Memory.unlisted := fun h => by
      have := ih c h
      simp only [List.length_cons]
      exact ⟨by omega, by omega, this.2.2⟩
    split at hc
    · exact tail hc
    · rename_i hv
      rcases List.mem_cons.mp hc with rfl | hc
      · exact ⟨le_refl k, by simp, hv⟩
      · exact tail hc

theorem Memory.wf_ofBytes (k : Nat) (bs : List Byte) : Memory.wf (Memory.ofBytes k bs) = true := by
  rw [Memory.wf_iff]
  refine ⟨?_, fun c hc => (Memory.ofBytes_keys c hc).2.2⟩
  induction bs generalizing k with
  | nil => simp [Memory.ofBytes]
  | cons v vs ih =>
    unfold Memory.ofBytes
    split
    · exact ih _
    · exact List.pairwise_cons.mpr ⟨fun c hc => (Memory.ofBytes_keys c hc).1, ih _⟩

theorem Memory.below_ofBytes (bs : List Byte) : Memory.below (Memory.ofBytes 0 bs) bs.length = true := by
  rw [Memory.below_iff]
  intro c hc
  have := (Memory.ofBytes_keys c hc).2.1
  omega

/-- The store of a byte list reads byte `i` of the list at `k + i`. -/
theorem Memory.read_ofBytes (k i : Nat) (bs : List Byte) :
    Memory.read (Memory.ofBytes k bs) (k + i) = bs.getD i Memory.unlisted := by
  induction bs generalizing k i with
  | nil => simp [Memory.ofBytes]
  | cons v vs ih =>
    have htail : ∀ i, Memory.read (Memory.ofBytes (k + 1) vs) (k + (i + 1)) = vs.getD i Memory.unlisted := fun i => by
      rw [← ih (k + 1) i]; congr 1; omega
    unfold Memory.ofBytes
    cases i with
    | zero =>
      split
      · rename_i hv
        have := Memory.read_of_all_above (m := Memory.ofBytes (k + 1) vs) (a := k) fun c hc => (Memory.ofBytes_keys c hc).1
        simpa [hv] using this
      · simp [Memory.read_cons]
    | succ i =>
      split
      · simpa using htail i
      · rw [Memory.read_cons, if_neg (by omega), htail i]; simp

/-- A list of bytes that read as unlisted ones needs no entry. -/
@[simp] theorem Memory.ofBytes_replicate (k n : Nat) : Memory.ofBytes k (List.replicate n Memory.unlisted) = [] := by
  induction n generalizing k with
  | zero => rfl
  | succ n ih => simp [List.replicate_succ, Memory.ofBytes, ih]

end Sys2Proof.Machine
end

