-- ==== Sys2Proof/Laws/State.lean ====
section
/-! SUPPORT. One lemma per field per state update, true by rfl (those of the trap by the ones before): no later proof unfolds a record update. -/

namespace Sys2Proof.Machine

variable (s : State)

@[simp] theorem State.setA_a (v : Byte) : (s.setA v).a = v := rfl
@[simp] theorem State.setA_x (v : Byte) : (s.setA v).x = s.x := rfl
@[simp] theorem State.setA_y (v : Byte) : (s.setA v).y = s.y := rfl
@[simp] theorem State.setA_sp (v : Byte) : (s.setA v).sp = s.sp := rfl
@[simp] theorem State.setA_pc (v : Byte) : (s.setA v).pc = s.pc := rfl
@[simp] theorem State.setA_p (v : Byte) : (s.setA v).p = setZN v s.p := rfl
@[simp] theorem State.setA_ram (v : Byte) : (s.setA v).ram = s.ram := rfl
@[simp] theorem State.setA_prg (v : Byte) : (s.setA v).prg = s.prg := rfl
@[simp] theorem State.setA_prgLen (v : Byte) : (s.setA v).prgLen = s.prgLen := rfl
@[simp] theorem State.setA_trace (v : Byte) : (s.setA v).trace = s.trace := rfl

@[simp] theorem State.setX_a (v : Byte) : (s.setX v).a = s.a := rfl
@[simp] theorem State.setX_x (v : Byte) : (s.setX v).x = v := rfl
@[simp] theorem State.setX_y (v : Byte) : (s.setX v).y = s.y := rfl
@[simp] theorem State.setX_sp (v : Byte) : (s.setX v).sp = s.sp := rfl
@[simp] theorem State.setX_pc (v : Byte) : (s.setX v).pc = s.pc := rfl
@[simp] theorem State.setX_p (v : Byte) : (s.setX v).p = setZN v s.p := rfl
@[simp] theorem State.setX_ram (v : Byte) : (s.setX v).ram = s.ram := rfl
@[simp] theorem State.setX_prg (v : Byte) : (s.setX v).prg = s.prg := rfl
@[simp] theorem State.setX_prgLen (v : Byte) : (s.setX v).prgLen = s.prgLen := rfl
@[simp] theorem State.setX_trace (v : Byte) : (s.setX v).trace = s.trace := rfl

@[simp] theorem State.setY_a (v : Byte) : (s.setY v).a = s.a := rfl
@[simp] theorem State.setY_x (v : Byte) : (s.setY v).x = s.x := rfl
@[simp] theorem State.setY_y (v : Byte) : (s.setY v).y = v := rfl
@[simp] theorem State.setY_sp (v : Byte) : (s.setY v).sp = s.sp := rfl
@[simp] theorem State.setY_pc (v : Byte) : (s.setY v).pc = s.pc := rfl
@[simp] theorem State.setY_p (v : Byte) : (s.setY v).p = setZN v s.p := rfl
@[simp] theorem State.setY_ram (v : Byte) : (s.setY v).ram = s.ram := rfl
@[simp] theorem State.setY_prg (v : Byte) : (s.setY v).prg = s.prg := rfl
@[simp] theorem State.setY_prgLen (v : Byte) : (s.setY v).prgLen = s.prgLen := rfl
@[simp] theorem State.setY_trace (v : Byte) : (s.setY v).trace = s.trace := rfl

@[simp] theorem State.setSP_a (v : Byte) : (s.setSP v).a = s.a := rfl
@[simp] theorem State.setSP_x (v : Byte) : (s.setSP v).x = s.x := rfl
@[simp] theorem State.setSP_y (v : Byte) : (s.setSP v).y = s.y := rfl
@[simp] theorem State.setSP_sp (v : Byte) : (s.setSP v).sp = v := rfl
@[simp] theorem State.setSP_pc (v : Byte) : (s.setSP v).pc = s.pc := rfl
@[simp] theorem State.setSP_p (v : Byte) : (s.setSP v).p = s.p := rfl
@[simp] theorem State.setSP_ram (v : Byte) : (s.setSP v).ram = s.ram := rfl
@[simp] theorem State.setSP_prg (v : Byte) : (s.setSP v).prg = s.prg := rfl
@[simp] theorem State.setSP_prgLen (v : Byte) : (s.setSP v).prgLen = s.prgLen := rfl
@[simp] theorem State.setSP_trace (v : Byte) : (s.setSP v).trace = s.trace := rfl

@[simp] theorem State.setPC_a (v : Word) : (s.setPC v).a = s.a := rfl
@[simp] theorem State.setPC_x (v : Word) : (s.setPC v).x = s.x := rfl
@[simp] theorem State.setPC_y (v : Word) : (s.setPC v).y = s.y := rfl
@[simp] theorem State.setPC_sp (v : Word) : (s.setPC v).sp = s.sp := rfl
@[simp] theorem State.setPC_pc (v : Word) : (s.setPC v).pc = v := rfl
@[simp] theorem State.setPC_p (v : Word) : (s.setPC v).p = s.p := rfl
@[simp] theorem State.setPC_ram (v : Word) : (s.setPC v).ram = s.ram := rfl
@[simp] theorem State.setPC_prg (v : Word) : (s.setPC v).prg = s.prg := rfl
@[simp] theorem State.setPC_prgLen (v : Word) : (s.setPC v).prgLen = s.prgLen := rfl
@[simp] theorem State.setPC_trace (v : Word) : (s.setPC v).trace = s.trace := rfl

@[simp] theorem State.setP_a (v : Byte) : (s.setP v).a = s.a := rfl
@[simp] theorem State.setP_x (v : Byte) : (s.setP v).x = s.x := rfl
@[simp] theorem State.setP_y (v : Byte) : (s.setP v).y = s.y := rfl
@[simp] theorem State.setP_sp (v : Byte) : (s.setP v).sp = s.sp := rfl
@[simp] theorem State.setP_pc (v : Byte) : (s.setP v).pc = s.pc := rfl
@[simp] theorem State.setP_p (v : Byte) : (s.setP v).p = statusValue v := rfl
@[simp] theorem State.setP_ram (v : Byte) : (s.setP v).ram = s.ram := rfl
@[simp] theorem State.setP_prg (v : Byte) : (s.setP v).prg = s.prg := rfl
@[simp] theorem State.setP_prgLen (v : Byte) : (s.setP v).prgLen = s.prgLen := rfl
@[simp] theorem State.setP_trace (v : Byte) : (s.setP v).trace = s.trace := rfl

@[simp] theorem State.updP_a (f : Byte → Byte) : (s.updP f).a = s.a := rfl
@[simp] theorem State.updP_x (f : Byte → Byte) : (s.updP f).x = s.x := rfl
@[simp] theorem State.updP_y (f : Byte → Byte) : (s.updP f).y = s.y := rfl
@[simp] theorem State.updP_sp (f : Byte → Byte) : (s.updP f).sp = s.sp := rfl
@[simp] theorem State.updP_pc (f : Byte → Byte) : (s.updP f).pc = s.pc := rfl
@[simp] theorem State.updP_p (f : Byte → Byte) : (s.updP f).p = f s.p := rfl
@[simp] theorem State.updP_ram (f : Byte → Byte) : (s.updP f).ram = s.ram := rfl
@[simp] theorem State.updP_prg (f : Byte → Byte) : (s.updP f).prg = s.prg := rfl
@[simp] theorem State.updP_prgLen (f : Byte → Byte) : (s.updP f).prgLen = s.prgLen := rfl
@[simp] theorem State.updP_trace (f : Byte → Byte) : (s.updP f).trace = s.trace := rfl

@[simp] theorem State.setFlag_a (f : Flag) (b : Bool) : (s.setFlag f b).a = s.a := rfl
@[simp] theorem State.setFlag_x (f : Flag) (b : Bool) : (s.setFlag f b).x = s.x := rfl
@[simp] theorem State.setFlag_y (f : Flag) (b : Bool) : (s.setFlag f b).y = s.y := rfl
@[simp] theorem State.setFlag_sp (f : Flag) (b : Bool) : (s.setFlag f b).sp = s.sp := rfl
@[simp] theorem State.setFlag_pc (f : Flag) (b : Bool) : (s.setFlag f b).pc = s.pc := rfl
@[simp] theorem State.setFlag_p (f : Flag) (b : Bool) : (s.setFlag f b).p = Machine.setFlag f b s.p := rfl
@[simp] theorem State.setFlag_ram (f : Flag) (b : Bool) : (s.setFlag f b).ram = s.ram := rfl
@[simp] theorem State.setFlag_prg (f : Flag) (b : Bool) : (s.setFlag f b).prg = s.prg := rfl
@[simp] theorem State.setFlag_prgLen (f : Flag) (b : Bool) : (s.setFlag f b).prgLen = s.prgLen := rfl
@[simp] theorem State.setFlag_trace (f : Flag) (b : Bool) : (s.setFlag f b).trace = s.trace := rfl

@[simp] theorem State.advance_a (n : Nat) : (s.advance n).a = s.a := rfl
@[simp] theorem State.advance_x (n : Nat) : (s.advance n).x = s.x := rfl
@[simp] theorem State.advance_y (n : Nat) : (s.advance n).y = s.y := rfl
@[simp] theorem State.advance_sp (n : Nat) : (s.advance n).sp = s.sp := rfl
@[simp] theorem State.advance_pc (n : Nat) : (s.advance n).pc = s.pc + BitVec.ofNat 16 n := rfl
@[simp] theorem State.advance_p (n : Nat) : (s.advance n).p = s.p := rfl
@[simp] theorem State.advance_ram (n : Nat) : (s.advance n).ram = s.ram := rfl
@[simp] theorem State.advance_prg (n : Nat) : (s.advance n).prg = s.prg := rfl
@[simp] theorem State.advance_prgLen (n : Nat) : (s.advance n).prgLen = s.prgLen := rfl
@[simp] theorem State.advance_trace (n : Nat) : (s.advance n).trace = s.trace := rfl

@[simp] theorem ramWrite_a (a : Word) (v : Byte) : (ramWrite a v s).a = s.a := rfl
@[simp] theorem ramWrite_x (a : Word) (v : Byte) : (ramWrite a v s).x = s.x := rfl
@[simp] theorem ramWrite_y (a : Word) (v : Byte) : (ramWrite a v s).y = s.y := rfl
@[simp] theorem ramWrite_sp (a : Word) (v : Byte) : (ramWrite a v s).sp = s.sp := rfl
@[simp] theorem ramWrite_pc (a : Word) (v : Byte) : (ramWrite a v s).pc = s.pc := rfl
@[simp] theorem ramWrite_p (a : Word) (v : Byte) : (ramWrite a v s).p = s.p := rfl
@[simp] theorem ramWrite_ram (a : Word) (v : Byte) : (ramWrite a v s).ram = Memory.write s.ram a.toNat v := rfl
@[simp] theorem ramWrite_prg (a : Word) (v : Byte) : (ramWrite a v s).prg = s.prg := rfl
@[simp] theorem ramWrite_prgLen (a : Word) (v : Byte) : (ramWrite a v s).prgLen = s.prgLen := rfl
@[simp] theorem ramWrite_trace (a : Word) (v : Byte) : (ramWrite a v s).trace = s.trace := rfl

@[simp] theorem push_a (v : Byte) : (push v s).a = s.a := rfl
@[simp] theorem push_x (v : Byte) : (push v s).x = s.x := rfl
@[simp] theorem push_y (v : Byte) : (push v s).y = s.y := rfl
@[simp] theorem push_sp (v : Byte) : (push v s).sp = s.sp - 1 := rfl
@[simp] theorem push_pc (v : Byte) : (push v s).pc = s.pc := rfl
@[simp] theorem push_p (v : Byte) : (push v s).p = s.p := rfl
@[simp] theorem push_ram (v : Byte) : (push v s).ram = Memory.write s.ram (stackAddr s.sp).toNat v := rfl
@[simp] theorem push_prg (v : Byte) : (push v s).prg = s.prg := rfl
@[simp] theorem push_prgLen (v : Byte) : (push v s).prgLen = s.prgLen := rfl
@[simp] theorem push_trace (v : Byte) : (push v s).trace = s.trace := rfl

@[simp] theorem pull_a : ((pull s).2).a = s.a := rfl
@[simp] theorem pull_x : ((pull s).2).x = s.x := rfl
@[simp] theorem pull_y : ((pull s).2).y = s.y := rfl
@[simp] theorem pull_sp : ((pull s).2).sp = s.sp + 1 := rfl
@[simp] theorem pull_pc : ((pull s).2).pc = s.pc := rfl
@[simp] theorem pull_p : ((pull s).2).p = s.p := rfl
@[simp] theorem pull_ram : ((pull s).2).ram = s.ram := rfl
@[simp] theorem pull_prg : ((pull s).2).prg = s.prg := rfl
@[simp] theorem pull_prgLen : ((pull s).2).prgLen = s.prgLen := rfl
@[simp] theorem pull_trace : ((pull s).2).trace = s.trace := rfl

@[simp] theorem pullStatus_a : (pullStatus s).a = s.a := rfl
@[simp] theorem pullStatus_x : (pullStatus s).x = s.x := rfl
@[simp] theorem pullStatus_y : (pullStatus s).y = s.y := rfl
@[simp] theorem pullStatus_sp : (pullStatus s).sp = s.sp + 1 := rfl
@[simp] theorem pullStatus_pc : (pullStatus s).pc = s.pc := rfl
@[simp] theorem pullStatus_p : (pullStatus s).p = statusValue (pulledStatus (memRead (stackAddr (s.sp + 1)) s)) := rfl
@[simp] theorem pullStatus_ram : (pullStatus s).ram = s.ram := rfl
@[simp] theorem pullStatus_prg : (pullStatus s).prg = s.prg := rfl
@[simp] theorem pullStatus_prgLen : (pullStatus s).prgLen = s.prgLen := rfl
@[simp] theorem pullStatus_trace : (pullStatus s).trace = s.trace := rfl

/-- The byte `pull` gives. -/
@[simp] theorem pull_fst : (pull s).1 = memRead (stackAddr (s.sp + 1)) s := rfl

/-! The trap and the 16-bit stack operations, from the lemmas above. -/

@[simp] theorem push16_a (w : Word) : (push16 w s).a = s.a := rfl
@[simp] theorem push16_x (w : Word) : (push16 w s).x = s.x := rfl
@[simp] theorem push16_y (w : Word) : (push16 w s).y = s.y := rfl
@[simp] theorem push16_sp (w : Word) : (push16 w s).sp = s.sp - 1 - 1 := rfl
@[simp] theorem push16_pc (w : Word) : (push16 w s).pc = s.pc := rfl
@[simp] theorem push16_p (w : Word) : (push16 w s).p = s.p := rfl
@[simp] theorem push16_ram (w : Word) : (push16 w s).ram = (push (lo w) (push (hi w) s)).ram := rfl
@[simp] theorem push16_prg (w : Word) : (push16 w s).prg = s.prg := rfl
@[simp] theorem push16_prgLen (w : Word) : (push16 w s).prgLen = s.prgLen := rfl
@[simp] theorem push16_trace (w : Word) : (push16 w s).trace = s.trace := rfl

@[simp] theorem pull16_a : ((pull16 s).2).a = s.a := rfl
@[simp] theorem pull16_x : ((pull16 s).2).x = s.x := rfl
@[simp] theorem pull16_y : ((pull16 s).2).y = s.y := rfl
@[simp] theorem pull16_sp : ((pull16 s).2).sp = s.sp + 1 + 1 := rfl
@[simp] theorem pull16_pc : ((pull16 s).2).pc = s.pc := rfl
@[simp] theorem pull16_p : ((pull16 s).2).p = s.p := rfl
@[simp] theorem pull16_ram : ((pull16 s).2).ram = s.ram := rfl
@[simp] theorem pull16_prg : ((pull16 s).2).prg = s.prg := rfl
@[simp] theorem pull16_prgLen : ((pull16 s).2).prgLen = s.prgLen := rfl
@[simp] theorem pull16_trace : ((pull16 s).2).trace = s.trace := rfl

@[simp] theorem takeTrap_a (w : Word) : (takeTrap w s).a = s.a := by simp [takeTrap]
@[simp] theorem takeTrap_x (w : Word) : (takeTrap w s).x = s.x := by simp [takeTrap]
@[simp] theorem takeTrap_y (w : Word) : (takeTrap w s).y = s.y := by simp [takeTrap]
@[simp] theorem takeTrap_sp (w : Word) : (takeTrap w s).sp = s.sp - 1 - 1 - 1 := by simp [takeTrap]
@[simp] theorem takeTrap_p (w : Word) : (takeTrap w s).p = setFlag .I true s.p := by simp [takeTrap]
@[simp] theorem takeTrap_ram (w : Word) : (takeTrap w s).ram = (push (s.p ||| (breakMask ||| unusedMask)) (push16 w s)).ram := by simp [takeTrap]
@[simp] theorem takeTrap_prg (w : Word) : (takeTrap w s).prg = s.prg := by simp [takeTrap]
@[simp] theorem takeTrap_prgLen (w : Word) : (takeTrap w s).prgLen = s.prgLen := by simp [takeTrap]
@[simp] theorem takeTrap_trace (w : Word) : (takeTrap w s).trace = s.trace := by simp [takeTrap]

@[simp] theorem returnFromTrap_a : (returnFromTrap s).a = s.a := by simp [returnFromTrap]
@[simp] theorem returnFromTrap_x : (returnFromTrap s).x = s.x := by simp [returnFromTrap]
@[simp] theorem returnFromTrap_y : (returnFromTrap s).y = s.y := by simp [returnFromTrap]
@[simp] theorem returnFromTrap_sp : (returnFromTrap s).sp = s.sp + 1 + 1 + 1 := by simp [returnFromTrap]
@[simp] theorem returnFromTrap_p : (returnFromTrap s).p = statusValue (pulledStatus (memRead (stackAddr (s.sp + 1)) s)) := by simp [returnFromTrap]
@[simp] theorem returnFromTrap_ram : (returnFromTrap s).ram = s.ram := by simp [returnFromTrap]
@[simp] theorem returnFromTrap_prg : (returnFromTrap s).prg = s.prg := by simp [returnFromTrap]
@[simp] theorem returnFromTrap_prgLen : (returnFromTrap s).prgLen = s.prgLen := by simp [returnFromTrap]
@[simp] theorem returnFromTrap_trace : (returnFromTrap s).trace = s.trace := by simp [returnFromTrap]

end Sys2Proof.Machine
end

