-- ==== Sys2Proof/Laws/Ops.lean ====
section
/-! SUPPORT. One lemma per shared operation that says all it can do: the router, the stack, locations and the
shapes of a resolved operation. Later proofs cite these and do not unfold the operations. -/

namespace Sys2Proof.Machine

/-! ## Byte order -/

@[simp] theorem word_hi_lo (w : Word) : word (hi w) (lo w) = w := by
  apply BitVec.eq_of_getLsbD_eq
  intro i h
  simp only [word, hi, lo, BitVec.getLsbD_or, BitVec.getLsbD_shiftLeft, BitVec.getLsbD_setWidth,
    BitVec.getLsbD_extractLsb']
  by_cases h8 : i < 8
  · simp [h8, h]
  · simp [h8, h, show 8 + (i - 8) = i by omega, show i - 8 < 8 by omega, show i - 8 < 16 by omega]

@[simp] theorem lo_word (h l : Byte) : lo (word h l) = l := by
  apply BitVec.eq_of_getLsbD_eq
  intro i hi
  simp [word, lo, hi, show i < 16 by omega]

@[simp] theorem hi_word (h l : Byte) : hi (word h l) = h := by
  apply BitVec.eq_of_getLsbD_eq
  intro i hi
  simp [word, Sys2Proof.hi, hi, show 8 + i < 16 by omega]

/-- The value of a little-endian pair (R43). -/
theorem toNat_word (h l : Byte) : (word h l).toNat = l.toNat + 256 * h.toNat := by
  have hh := h.isLt
  have hl := l.isLt
  simp only [word, BitVec.toNat_or, BitVec.toNat_shiftLeft, BitVec.toNat_setWidth]
  rw [Nat.mod_eq_of_lt (by omega : h.toNat < 2 ^ 16), Nat.mod_eq_of_lt (by omega : l.toNat < 2 ^ 16), Nat.shiftLeft_eq,
    Nat.mod_eq_of_lt (by omega), Nat.mul_comm h.toNat, ← Nat.two_pow_add_eq_or_of_lt (i := 8) (by omega)]
  omega

theorem lo_eq_ofNat (w : Word) : lo w = BitVec.ofNat 8 w.toNat := by
  apply BitVec.eq_of_toNat_eq; simp [lo]

theorem hi_eq_ofNat (w : Word) : hi w = BitVec.ofNat 8 (w.toNat / 256) := by
  apply BitVec.eq_of_toNat_eq; simp [hi, Nat.shiftRight_eq_div_pow]

/-! ## The router -/

/-- A router read depends on RAM, the image and its length alone. -/
theorem memRead_congr {s t : State} (h1 : s.ram = t.ram) (h2 : s.prg = t.prg) (h3 : s.prgLen = t.prgLen) (a : Word) :
    memRead a s = memRead a t := by simp [memRead, prgOffset, h1, h2, h3]

/-! What writes no memory leaves every read. -/

@[simp] theorem memRead_setA (b : Word) (v : Byte) (s : State) : memRead b (s.setA v) = memRead b s := rfl
@[simp] theorem memRead_setX (b : Word) (v : Byte) (s : State) : memRead b (s.setX v) = memRead b s := rfl
@[simp] theorem memRead_setY (b : Word) (v : Byte) (s : State) : memRead b (s.setY v) = memRead b s := rfl
@[simp] theorem memRead_setSP (b : Word) (v : Byte) (s : State) : memRead b (s.setSP v) = memRead b s := rfl
@[simp] theorem memRead_setPC (b : Word) (v : Word) (s : State) : memRead b (s.setPC v) = memRead b s := rfl
@[simp] theorem memRead_setP (b : Word) (v : Byte) (s : State) : memRead b (s.setP v) = memRead b s := rfl
@[simp] theorem memRead_updP (b : Word) (f : Byte → Byte) (s : State) : memRead b (s.updP f) = memRead b s := rfl
@[simp] theorem memRead_setFlag (b : Word) (f : Flag) (v : Bool) (s : State) : memRead b (s.setFlag f v) = memRead b s := rfl
@[simp] theorem memRead_advance (b : Word) (n : Nat) (s : State) : memRead b (s.advance n) = memRead b s := rfl
@[simp] theorem memRead_pull (b : Word) (s : State) : memRead b ((pull s).2) = memRead b s := rfl
@[simp] theorem memRead_pullStatus (b : Word) (s : State) : memRead b (pullStatus s) = memRead b s := rfl
@[simp] theorem memRead_pull16 (b : Word) (s : State) : memRead b ((pull16 s).2) = memRead b s := rfl
@[simp] theorem memRead_returnFromTrap (b : Word) (s : State) : memRead b (returnFromTrap s) = memRead b s := memRead_congr (by simp) (by simp) (by simp) b

/-- A read after a store to RAM (R38, R40): the byte stored at its own address, any other address as before; an
address of the PRG-ROM window always as before. -/
theorem memRead_ramWrite (a b : Word) (v : Byte) (s : State) :
    memRead b (ramWrite a v s) = if b = a ∧ b.toNat < romBase then v else memRead b s := by
  unfold memRead
  by_cases hr : romBase ≤ b.toNat
  · simp [hr, prgOffset]
  · rw [if_neg hr, if_neg hr, ramWrite_ram, Memory.read_write]
    have hb : b.toNat < romBase := by omega
    simp [hb, ← BitVec.toNat_inj]

theorem memRead_ramWrite_of_ne {a b : Word} (v : Byte) (s : State) (h : b ≠ a) :
    memRead b (ramWrite a v s) = memRead b s := by simp [memRead_ramWrite, h]

theorem memWrite_of_lt {a : Word} (v : Byte) (s : State) (h : a.toNat < romBase) :
    memWrite a v s = .next (ramWrite a v s) := by simp [memWrite, h]

theorem memWrite_of_ge {a : Word} (v : Byte) (s : State) (h : romBase ≤ a.toNat) :
    memWrite a v s = .fault (.romWrite a) := by simp [memWrite, h]

/-! ## The stack -/

theorem toNat_stackAddr (p : Byte) : (stackAddr p).toNat = 0x100 + p.toNat := by
  have := p.isLt
  simp [stackAddr, zext16]
  omega

theorem stackAddr_lt (p : Byte) : (stackAddr p).toNat < romBase := by
  have := p.isLt
  rw [toNat_stackAddr]; simp [romBase]; omega

theorem stackAddr_inj {p q : Byte} : stackAddr p = stackAddr q ↔ p = q := by
  rw [← BitVec.toNat_inj, toNat_stackAddr, toNat_stackAddr, ← BitVec.toNat_inj]; omega

/-- A stack address is always in RAM, so the store of `push` is the router's and never faults (R46). -/
theorem memWrite_stackAddr (p v : Byte) (s : State) :
    memWrite (stackAddr p) v s = .next (ramWrite (stackAddr p) v s) := memWrite_of_lt v s (stackAddr_lt p)

/-- A read after a push: the byte pushed at its own stack address, every other address as before (R46). -/
theorem memRead_push (v : Byte) (s : State) (b : Word) :
    memRead b (push v s) = if b = stackAddr s.sp then v else memRead b s := by
  show memRead b (ramWrite (stackAddr s.sp) v s) = _
  rw [memRead_ramWrite]
  by_cases hb : b = stackAddr s.sp
  · simp [hb, stackAddr_lt]
  · simp [hb]

/-- Pulling after a push gives the byte and the stack pointer back (R46, R47). -/
theorem pull_push (v : Byte) (s : State) : (pull (push v s)).1 = v ∧ (pull (push v s)).2.sp = s.sp := by
  constructor
  · have h : s.sp - 1 + 1 = s.sp := by simp
    rw [pull_fst, push_sp, h, memRead_push, if_pos rfl]
  · simp

/-- A read after a 16-bit push: the high byte at the stack pointer, the low byte below it (R43, R46). -/
theorem memRead_push16 (w : Word) (s : State) (b : Word) :
    memRead b (push16 w s) =
      if b = stackAddr s.sp then hi w else if b = stackAddr (s.sp - 1) then lo w else memRead b s := by
  have hne : ∀ p : Byte, p - 1 ≠ p := by decide
  show memRead b (push (lo w) (push (hi w) s)) = _
  rw [memRead_push, memRead_push, push_sp]
  by_cases h1 : b = stackAddr (s.sp - 1)
  · rw [if_pos h1, if_neg (by rw [h1, stackAddr_inj]; exact hne _), if_pos h1]
  · rw [if_neg h1, if_neg h1]

/-- The word a 16-bit pull gives (R104). -/
theorem pull16_fst (s : State) :
    (pull16 s).1 = word (memRead (stackAddr (s.sp + 2)) s) (memRead (stackAddr (s.sp + 1)) s) := by
  have h : ∀ p : Byte, p + 1 + 1 = p + 2 := by decide
  show word (memRead (stackAddr (s.sp + 1 + 1)) (pull s).2) _ = _
  rw [h, memRead_congr (t := s) rfl rfl rfl]
  rfl

/-! ## The trap -/

/-- A read after BRK's trap: the return address and the status with B and U set on the stack (R106). -/
theorem memRead_takeTrap (r : Word) (s : State) (b : Word) :
    memRead b (takeTrap r s) =
      if b = stackAddr s.sp then hi r else if b = stackAddr (s.sp - 1) then lo r
      else if b = stackAddr (s.sp - 2) then s.p ||| (breakMask ||| unusedMask) else memRead b s := by
  have h2 : ∀ p : Byte, p - 1 - 1 = p - 2 ∧ p - 2 ≠ p ∧ p - 2 ≠ p - 1 := by decide
  obtain ⟨e, hn, hm⟩ := h2 s.sp
  rw [memRead_congr (takeTrap_ram s r) (takeTrap_prg s r) (takeTrap_prgLen s r), memRead_push, memRead_push16, push16_sp, e]
  by_cases h : b = stackAddr (s.sp - 2)
  · rw [if_pos h, if_neg (by rw [h, stackAddr_inj]; exact hn), if_neg (by rw [h, stackAddr_inj]; exact hm), if_pos h]
  · rw [if_neg h, if_neg h]

/-- An address of the PRG-ROM window reads after BRK's trap as before it. -/
theorem memRead_takeTrap_rom (r : Word) (s : State) {b : Word} (hb : romBase ≤ b.toNat) :
    memRead b (takeTrap r s) = memRead b s := by
  have h : ∀ p : Byte, b ≠ stackAddr p := by
    intro p e
    have := stackAddr_lt p
    rw [e] at hb; omega
  rw [memRead_takeTrap, if_neg (h _), if_neg (h _), if_neg (h _)]

/-- PC after BRK's trap: the word at the vector (R106). -/
theorem takeTrap_pc (r : Word) (s : State) : (takeTrap r s).pc = read16 brkVector s := by
  have h : (takeTrap r s).pc = read16 brkVector (takeTrap r s) := by
    simp only [takeTrap, State.setPC_pc]
    generalize State.setFlag .I true _ = u
    exact congrArg₂ word (memRead_congr rfl rfl rfl _) (memRead_congr rfl rfl rfl _)
  rw [h, read16, read16, memRead_takeTrap_rom r s (by decide), memRead_takeTrap_rom r s (by decide)]

/-- PC after the return from a trap: the two bytes above the status (R105). -/
theorem returnFromTrap_pc (s : State) :
    (returnFromTrap s).pc = word (memRead (stackAddr (s.sp + 3)) s) (memRead (stackAddr (s.sp + 2)) s) := by
  have h : ∀ p : Byte, p + 1 + 1 = p + 2 ∧ p + 1 + 2 = p + 3 := by decide
  show (pull16 (pullStatus s)).1 = _
  rw [pull16_fst, pullStatus_sp, (h s.sp).1, (h s.sp).2,
    memRead_congr (s := pullStatus s) (t := s) (by simp) (by simp) (by simp),
    memRead_congr (s := pullStatus s) (t := s) (by simp) (by simp) (by simp)]

/-! ## Locations and the four shapes -/

/-- Everything a location write can do (R42). -/
theorem locWrite_cases (l : Loc) (v : Byte) (s : State) :
    (l = .acc ∧ locWrite l v s = .next (s.setA v)) ∨
    (∃ i, l = .const i ∧ locWrite l v s = .fault (.constantWrite i)) ∨
    (∃ a, l = .mem a ∧ a.toNat < romBase ∧ locWrite l v s = .next (ramWrite a v s)) ∨
    (∃ a, l = .mem a ∧ romBase ≤ a.toNat ∧ locWrite l v s = .fault (.romWrite a)) := by
  cases l with
  | acc => exact .inl ⟨rfl, rfl⟩
  | const i => exact .inr (.inl ⟨i, rfl, rfl⟩)
  | mem a =>
    by_cases h : a.toNat < romBase
    · exact .inr (.inr (.inl ⟨a, rfl, h, memWrite_of_lt v s h⟩))
    · exact .inr (.inr (.inr ⟨a, rfl, by omega, memWrite_of_ge v s (by omega)⟩))

/-- A load or compute always completes, with `f` applied to the byte read and the state after the PC advance (R82). -/
theorem loadOp_eq (o : Operand) (f : Byte → State → State) (s : State) :
    loadOp o f s = .next (f (operandValue o s) (s.advance o.mode.len)) := rfl

/-- What a store that completes leaves (R82). -/
theorem storeOp_next {o : Operand} {v : Byte} {s t : State} (h : storeOp o v s = .next t) :
    (resolve o s = .acc ∧ t = (s.advance o.mode.len).setA v) ∨
    ∃ a, resolve o s = .mem a ∧ a.toNat < romBase ∧ t = ramWrite a v (s.advance o.mode.len) := by
  unfold storeOp at h
  rcases locWrite_cases (resolve o s) v (s.advance o.mode.len) with
    ⟨hl, he⟩ | ⟨i, hl, he⟩ | ⟨a, hl, ha, he⟩ | ⟨a, hl, ha, he⟩ <;> rw [he] at h <;> cases h
  · exact .inl ⟨hl, rfl⟩
  · exact .inr ⟨a, hl, ha, rfl⟩

/-- What a read-modify-write that completes leaves (R82): in the accumulator form A is written through its port,
in a memory form the flags are the operation's. -/
theorem modifyOp_next {o : Operand} {r : Byte → Byte} {f : Byte → Byte → Byte} {s t : State}
    (h : modifyOp o r f s = .next t) :
    (resolve o s = .acc ∧
      t = ((s.advance o.mode.len).updP (f (operandValue o s))).setA (r (operandValue o s))) ∨
    ∃ a, resolve o s = .mem a ∧ a.toNat < romBase ∧
      t = ramWrite a (r (operandValue o s)) ((s.advance o.mode.len).updP (f (operandValue o s))) := by
  unfold modifyOp at h
  rcases locWrite_cases (resolve o s) (r (operandValue o s))
      ((s.advance o.mode.len).updP (f (operandValue o s))) with
    ⟨hl, he⟩ | ⟨i, hl, he⟩ | ⟨a, hl, ha, he⟩ | ⟨a, hl, ha, he⟩ <;> simp only [he] at h <;> cases h
  · exact .inl ⟨hl, rfl⟩
  · exact .inr ⟨a, hl, ha, rfl⟩

end Sys2Proof.Machine
end

