-- ==== Sys2Proof/Laws/Decode.lean ====
section
/-! SUPPORT. What the decoder does with operand bytes, separated from what it does with the opcode byte: an
instruction decoded with any operand bytes is the one decoded with zero bytes, its operand filled in anew. -/

namespace Sys2Proof

/-- A property of every byte, from its 256 cases. -/
theorem forall_byte {P : Byte → Prop} (h : ∀ n < 256, P (BitVec.ofNat 8 n)) (op : Byte) : P op := by
  have := h op.toNat op.isLt
  simpa using this

/-- An operand of the same mode with other operand bytes. -/
def Operand.refill (o : Operand) (b1 b2 : Byte) : Operand := (operandOf o.mode b1 b2).getD o

@[simp] theorem Operand.mode_refill (o : Operand) (b1 b2 : Byte) : (o.refill b1 b2).mode = o.mode := by
  cases o <;> rfl

theorem Operand.bytes_refill (o : Operand) (b1 b2 : Byte) :
    (o.refill b1 b2).bytes = [b1, b2].take (o.mode.len - 1) := by
  cases o <;> simp [Operand.refill, operandOf, Operand.bytes, Operand.mode, Mode.len, wordBytes, Machine.lo_word,
    Machine.hi_word]

/-- An instruction with other operand bytes. -/
def Instr.refill (i : Instr) (b1 b2 : Byte) : Instr :=
  match i with
  | .jmp (.abs _) => .jmp (.abs (word b2 b1))
  | .jmp (.ind _) => .jmp (.ind (word b2 b1))
  | .jsr _ => .jsr (word b2 b1)
  | .bpl _ => .bpl b1
  | .bmi _ => .bmi b1
  | .bvc _ => .bvc b1
  | .bvs _ => .bvs b1
  | .bcc _ => .bcc b1
  | .bcs _ => .bcs b1
  | .bne _ => .bne b1
  | .beq _ => .beq b1
  | .nopInert op arg => .nopInert op (arg.map (·.refill b1 b2))
  | .ora o => .ora (o.refill b1 b2)
  | .and o => .and (o.refill b1 b2)
  | .eor o => .eor (o.refill b1 b2)
  | .adc o => .adc (o.refill b1 b2)
  | .sta o => .sta (o.refill b1 b2)
  | .lda o => .lda (o.refill b1 b2)
  | .cmp o => .cmp (o.refill b1 b2)
  | .sbc o => .sbc (o.refill b1 b2)
  | .asl o => .asl (o.refill b1 b2)
  | .rol o => .rol (o.refill b1 b2)
  | .lsr o => .lsr (o.refill b1 b2)
  | .ror o => .ror (o.refill b1 b2)
  | .stx o => .stx (o.refill b1 b2)
  | .ldx o => .ldx (o.refill b1 b2)
  | .dec o => .dec (o.refill b1 b2)
  | .inc o => .inc (o.refill b1 b2)
  | .bit o => .bit (o.refill b1 b2)
  | .sty o => .sty (o.refill b1 b2)
  | .ldy o => .ldy (o.refill b1 b2)
  | .cpy o => .cpy (o.refill b1 b2)
  | .cpx o => .cpx (o.refill b1 b2)
  | .sax o => .sax (o.refill b1 b2)
  | .anc op o => .anc op (o.refill b1 b2)
  | .alr o => .alr (o.refill b1 b2)
  | .arr o => .arr (o.refill b1 b2)
  | .las op o => .las op (o.refill b1 b2)
  | .axs o => .axs (o.refill b1 b2)
  | .sbcUndoc o => .sbcUndoc (o.refill b1 b2)
  | .rts | .rti | .brk
  | .tax | .txa | .tay | .tya | .tsx | .txs
  | .clc | .sec | .cli | .sei | .clv | .cld | .sed
  | .pha | .php | .pla | .plp | .inx | .iny | .dex | .dey | .nop
  | .gap _ => i

/-- The opcode byte alone decides everything but the operand (R62, R72). -/
theorem decodeInstr_eq_refill (op b1 b2 : Byte) : decodeInstr op b1 b2 = (decodeInstr op 0 0).refill b1 b2 := by
  revert op
  apply forall_byte
  intro n hn
  interval_cases n <;> rfl

@[simp] theorem Instr.opcode_refill (i : Instr) (b1 b2 : Byte) : (i.refill b1 b2).opcode = i.opcode := by
  cases i
  case jmp t => cases t <;> rfl
  all_goals simp [Instr.refill, Instr.opcode]

@[simp] theorem Instr.wellFormed_refill (i : Instr) (b1 b2 : Byte) :
    (i.refill b1 b2).WellFormed = i.WellFormed := by
  cases i
  case jmp t => cases t <;> rfl
  case nopInert op arg => cases arg <;> simp [Instr.refill, Instr.WellFormed, argMode]
  all_goals simp only [Instr.refill, Instr.WellFormed, Operand.mode_refill]

/-- The operand bytes of a refilled instruction are the bytes it was filled with. -/
theorem Instr.operandBytes_refill (i : Instr) (b1 b2 : Byte) :
    (i.refill b1 b2).operandBytes = [b1, b2].take (i.length - 1) := by
  cases i
  case jmp t =>
    cases t <;> simp [Instr.refill, Instr.operandBytes, wordBytes, Instr.length, Instr.mode, Mode.len, Machine.lo_word,
      Machine.hi_word]
  case nopInert op arg =>
    cases arg <;> simp [Instr.refill, Instr.operandBytes, Instr.length, Instr.mode, argMode, Mode.len,
      Operand.bytes_refill]
  all_goals simp [Instr.refill, Instr.operandBytes, wordBytes, Instr.length, Instr.mode, Mode.len, Operand.bytes_refill,
    Machine.lo_word, Machine.hi_word]

theorem opcode_decodeInstr_zero : ∀ op : Byte, (decodeInstr op 0 0).opcode = op := by decide

/-- The opcode byte of a decoded instruction is the byte it was decoded from. -/
@[simp] theorem opcode_decodeInstr (op b1 b2 : Byte) : (decodeInstr op b1 b2).opcode = op := by
  rw [decodeInstr_eq_refill, Instr.opcode_refill, opcode_decodeInstr_zero]

end Sys2Proof
end

