-- ==== Sys2Proof/Laws/PerInstr.lean ====
section
/-! SUPPORT. What holds of every instruction as syntax, one lemma per constructor: an instruction occupies as many
bytes as the table gives its mode, one to three (spec/30_encoding.md R61, R62). -/

namespace Sys2Proof.Laws.EncodedLength

/-- The encoding has the length of the mode, one to three bytes. -/
def Statement (i : Instr) : Prop := (encode i).length = i.length ∧ 1 ≤ i.length ∧ i.length ≤ 3

theorem of_operand {i : Instr} (o : Operand) (hb : i.operandBytes = o.bytes) (hm : i.mode = o.mode) : Statement i := by
  have h : (encode i).length = o.bytes.length + 1 := by simp [encode, hb]
  rw [Statement, h, Instr.length, hm]
  cases o <;> simp [Operand.bytes, Operand.mode, Mode.len, wordBytes]

theorem of_mode {i : Instr} (m : Mode) (hb : i.operandBytes.length + 1 = m.len) (hm : i.mode = m) : Statement i := by
  have h : (encode i).length = m.len := by simpa [encode] using hb
  rw [Statement, h, Instr.length, hm]
  cases m <;> exact ⟨rfl, by decide, by decide⟩

theorem jmp (t : JmpTarget) : Statement (.jmp t) := by
  cases t
  · exact of_mode .absolute rfl rfl
  · exact of_mode .indirect rfl rfl
theorem jsr (w : Word) : Statement (.jsr w) := of_mode .absolute rfl rfl
theorem rts : Statement .rts := of_mode .implied rfl rfl
theorem rti : Statement .rti := of_mode .implied rfl rfl
theorem brk : Statement .brk := of_mode .implied rfl rfl
theorem bpl (r : Byte) : Statement (.bpl r) := of_mode .relative rfl rfl
theorem bmi (r : Byte) : Statement (.bmi r) := of_mode .relative rfl rfl
theorem bvc (r : Byte) : Statement (.bvc r) := of_mode .relative rfl rfl
theorem bvs (r : Byte) : Statement (.bvs r) := of_mode .relative rfl rfl
theorem bcc (r : Byte) : Statement (.bcc r) := of_mode .relative rfl rfl
theorem bcs (r : Byte) : Statement (.bcs r) := of_mode .relative rfl rfl
theorem bne (r : Byte) : Statement (.bne r) := of_mode .relative rfl rfl
theorem beq (r : Byte) : Statement (.beq r) := of_mode .relative rfl rfl
theorem tax : Statement .tax := of_mode .implied rfl rfl
theorem txa : Statement .txa := of_mode .implied rfl rfl
theorem tay : Statement .tay := of_mode .implied rfl rfl
theorem tya : Statement .tya := of_mode .implied rfl rfl
theorem tsx : Statement .tsx := of_mode .implied rfl rfl
theorem txs : Statement .txs := of_mode .implied rfl rfl
theorem clc : Statement .clc := of_mode .implied rfl rfl
theorem sec : Statement .sec := of_mode .implied rfl rfl
theorem cli : Statement .cli := of_mode .implied rfl rfl
theorem sei : Statement .sei := of_mode .implied rfl rfl
theorem clv : Statement .clv := of_mode .implied rfl rfl
theorem cld : Statement .cld := of_mode .implied rfl rfl
theorem sed : Statement .sed := of_mode .implied rfl rfl
theorem pha : Statement .pha := of_mode .implied rfl rfl
theorem php : Statement .php := of_mode .implied rfl rfl
theorem pla : Statement .pla := of_mode .implied rfl rfl
theorem plp : Statement .plp := of_mode .implied rfl rfl
theorem inx : Statement .inx := of_mode .implied rfl rfl
theorem iny : Statement .iny := of_mode .implied rfl rfl
theorem dex : Statement .dex := of_mode .implied rfl rfl
theorem dey : Statement .dey := of_mode .implied rfl rfl
theorem nop : Statement .nop := of_mode .implied rfl rfl
theorem nopInert (op : Byte) (arg : Option Operand) : Statement (.nopInert op arg) := by
  cases arg with
  | none => exact of_mode .implied rfl rfl
  | some o => exact of_operand o rfl rfl
theorem ora (o : Operand) : Statement (.ora o) := of_operand o rfl rfl
theorem and (o : Operand) : Statement (.and o) := of_operand o rfl rfl
theorem eor (o : Operand) : Statement (.eor o) := of_operand o rfl rfl
theorem adc (o : Operand) : Statement (.adc o) := of_operand o rfl rfl
theorem sta (o : Operand) : Statement (.sta o) := of_operand o rfl rfl
theorem lda (o : Operand) : Statement (.lda o) := of_operand o rfl rfl
theorem cmp (o : Operand) : Statement (.cmp o) := of_operand o rfl rfl
theorem sbc (o : Operand) : Statement (.sbc o) := of_operand o rfl rfl
theorem asl (o : Operand) : Statement (.asl o) := of_operand o rfl rfl
theorem rol (o : Operand) : Statement (.rol o) := of_operand o rfl rfl
theorem lsr (o : Operand) : Statement (.lsr o) := of_operand o rfl rfl
theorem ror (o : Operand) : Statement (.ror o) := of_operand o rfl rfl
theorem stx (o : Operand) : Statement (.stx o) := of_operand o rfl rfl
theorem ldx (o : Operand) : Statement (.ldx o) := of_operand o rfl rfl
theorem dec (o : Operand) : Statement (.dec o) := of_operand o rfl rfl
theorem inc (o : Operand) : Statement (.inc o) := of_operand o rfl rfl
theorem bit (o : Operand) : Statement (.bit o) := of_operand o rfl rfl
theorem sty (o : Operand) : Statement (.sty o) := of_operand o rfl rfl
theorem ldy (o : Operand) : Statement (.ldy o) := of_operand o rfl rfl
theorem cpy (o : Operand) : Statement (.cpy o) := of_operand o rfl rfl
theorem cpx (o : Operand) : Statement (.cpx o) := of_operand o rfl rfl
theorem sax (o : Operand) : Statement (.sax o) := of_operand o rfl rfl
theorem anc (op : Byte) (o : Operand) : Statement (.anc op o) := of_operand o rfl rfl
theorem alr (o : Operand) : Statement (.alr o) := of_operand o rfl rfl
theorem arr (o : Operand) : Statement (.arr o) := of_operand o rfl rfl
theorem las (op : Byte) (o : Operand) : Statement (.las op o) := of_operand o rfl rfl
theorem axs (o : Operand) : Statement (.axs o) := of_operand o rfl rfl
theorem sbcUndoc (o : Operand) : Statement (.sbcUndoc o) := of_operand o rfl rfl
theorem gap (op : Byte) : Statement (.gap op) := of_mode .implied rfl rfl

end Sys2Proof.Laws.EncodedLength
end

