-- ==== Sys2Proof/Tests/Slice0.lean ====
section
/-! SUPPORT. The model's own tests: ill-formed terms refused, every row of the opcode table decoded and encoded,
the vectors of spec/95_test_vectors.md, and a witness for the hypotheses of every obligation that has some. -/

open Sys2Proof Sys2Proof.Machine Sys2Proof.Claims

namespace Sys2Proof.Tests

/-! ## Ill-formed terms (30_encoding.md R63, R64, R69, R70; the encodings of R142 to R171) -/

theorem test_wellFormed_refuses_group01_accumulator : ([.ora .acc, .and .acc, .eor .acc, .adc .acc, .lda .acc, .cmp .acc, .sbc .acc, .lda (.zpy 0)] : List Instr).all (fun i => !i.WellFormed) = true := by decide
theorem test_wellFormed_refuses_sta_immediate : ([.sta (.imm 0), .sta .acc] : List Instr).all (fun i => !i.WellFormed) = true := by decide
theorem test_wellFormed_refuses_shift_modes : ([.asl (.absy 0), .rol (.zpy 0), .lsr (.indx 0), .ror (.indy 0)] : List Instr).all (fun i => !i.WellFormed) = true := by decide
theorem test_wellFormed_refuses_stx_modes : ([.stx (.zpx 0), .stx (.absy 0), .stx (.imm 0)] : List Instr).all (fun i => !i.WellFormed) = true := by decide
theorem test_wellFormed_refuses_ldx_modes : ([.ldx (.zpx 0), .ldx (.absx 0)] : List Instr).all (fun i => !i.WellFormed) = true := by decide
theorem test_wellFormed_refuses_dec_inc_modes : ([.dec (.imm 0), .inc .acc, .dec (.zpy 0)] : List Instr).all (fun i => !i.WellFormed) = true := by decide
theorem test_wellFormed_refuses_bit_modes : ([.bit (.imm 0), .bit (.zpx 0), .bit (.absx 0)] : List Instr).all (fun i => !i.WellFormed) = true := by decide
theorem test_wellFormed_refuses_sty_ldy_modes : ([.sty (.imm 0), .sty (.absy 0), .ldy (.absy 0), .ldy (.zpy 0)] : List Instr).all (fun i => !i.WellFormed) = true := by decide
theorem test_wellFormed_refuses_cpy_cpx_modes : ([.cpy (.zpx 0), .cpx (.absx 0)] : List Instr).all (fun i => !i.WellFormed) = true := by decide
theorem test_wellFormed_refuses_sax_zpx : ([.sax (.zpx 0), .sax .acc] : List Instr).all (fun i => !i.WellFormed) = true := by decide
theorem test_wellFormed_refuses_noop_tag_modes : ([.alr .acc, .arr (.zpy 0), .axs .acc, .sbcUndoc (.zpy 0)] : List Instr).all (fun i => !i.WellFormed) = true := by decide
theorem test_wellFormed_refuses_anc_opcode : ([.anc 0x43 (.indx 0), .anc 0x03 (.zp 0)] : List Instr).all (fun i => !i.WellFormed) = true := by decide
theorem test_wellFormed_refuses_las_opcode : ([.las 0xB7 (.zpx 0), .las 0xBF (.absx 0), .las 0x03 (.indx 0)] : List Instr).all (fun i => !i.WellFormed) = true := by decide
theorem test_wellFormed_refuses_inert_opcode : ([.nopInert 0xEA none, .nopInert 0x1A (some (.zp 0)), .nopInert 0x04 (some (.imm 0))] : List Instr).all (fun i => !i.WellFormed) = true := by decide
theorem test_wellFormed_refuses_gap_opcode : ([.gap 0x02, .gap 0x1A] : List Instr).all (fun i => !i.WellFormed) = true := by decide

/-! ## The opcode table: each row of spec/opcode_table.json, decoded with operand bytes 0x12 and 0x34, and encoded -/

/-- What `decode` reads at an opcode byte followed by 0x12, 0x34, where encoding it gives the bytes back. -/
def decoded (op : Byte) : Option Instr :=
  match decode [op, 0x12, 0x34] with
  | .ok (i, rest) => if encode i ++ rest = [op, 0x12, 0x34] ∧ i.WellFormed = true then some i else none
  | .error _ => none

/-- The sixteen opcode bytes of a row of the map. -/
def opcodeRow (k : Nat) : List (Option Instr) := (List.range 16).map fun n => decoded (BitVec.ofNat 8 (16 * k + n))

theorem test_opcode_row_0 : opcodeRow 0x0 = ([
    .brk, .ora (.indx 0x12), .asl (.imm 0x12), .anc 0x03 (.indx 0x12),
    .nopInert 0x04 (some (.zp 0x12)), .ora (.zp 0x12), .asl (.zp 0x12), .anc 0x07 (.zp 0x12),
    .php, .ora (.imm 0x12), .asl .acc, .anc 0x0B (.imm 0x12),
    .nopInert 0x0C (some (.abs 0x3412)), .ora (.abs 0x3412), .asl (.abs 0x3412), .anc 0x0F (.abs 0x3412)] : List Instr).map some := by decide

theorem test_opcode_row_1 : opcodeRow 0x1 = ([
    .bpl 0x12, .ora (.indy 0x12), .gap 0x12, .anc 0x13 (.indy 0x12),
    .nopInert 0x14 (some (.zpx 0x12)), .ora (.zpx 0x12), .asl (.zpx 0x12), .anc 0x17 (.zpx 0x12),
    .clc, .ora (.absy 0x3412), .nopInert 0x1A none, .anc 0x1B (.absy 0x3412),
    .nopInert 0x1C (some (.absx 0x3412)), .ora (.absx 0x3412), .asl (.absx 0x3412), .anc 0x1F (.absx 0x3412)] : List Instr).map some := by decide

theorem test_opcode_row_2 : opcodeRow 0x2 = ([
    .jsr 0x3412, .and (.indx 0x12), .rol (.imm 0x12), .anc 0x23 (.indx 0x12),
    .bit (.zp 0x12), .and (.zp 0x12), .rol (.zp 0x12), .anc 0x27 (.zp 0x12),
    .plp, .and (.imm 0x12), .rol .acc, .anc 0x2B (.imm 0x12),
    .bit (.abs 0x3412), .and (.abs 0x3412), .rol (.abs 0x3412), .anc 0x2F (.abs 0x3412)] : List Instr).map some := by decide

theorem test_opcode_row_3 : opcodeRow 0x3 = ([
    .bmi 0x12, .and (.indy 0x12), .gap 0x32, .anc 0x33 (.indy 0x12),
    .nopInert 0x34 (some (.zpx 0x12)), .and (.zpx 0x12), .rol (.zpx 0x12), .anc 0x37 (.zpx 0x12),
    .sec, .and (.absy 0x3412), .nopInert 0x3A none, .anc 0x3B (.absy 0x3412),
    .nopInert 0x3C (some (.absx 0x3412)), .and (.absx 0x3412), .rol (.absx 0x3412), .anc 0x3F (.absx 0x3412)] : List Instr).map some := by decide

theorem test_opcode_row_4 : opcodeRow 0x4 = ([
    .rti, .eor (.indx 0x12), .lsr (.imm 0x12), .alr (.indx 0x12),
    .nopInert 0x44 (some (.zp 0x12)), .eor (.zp 0x12), .lsr (.zp 0x12), .alr (.zp 0x12),
    .pha, .eor (.imm 0x12), .lsr .acc, .alr (.imm 0x12),
    .jmp (.abs 0x3412), .eor (.abs 0x3412), .lsr (.abs 0x3412), .alr (.abs 0x3412)] : List Instr).map some := by decide

theorem test_opcode_row_5 : opcodeRow 0x5 = ([
    .bvc 0x12, .eor (.indy 0x12), .gap 0x52, .alr (.indy 0x12),
    .nopInert 0x54 (some (.zpx 0x12)), .eor (.zpx 0x12), .lsr (.zpx 0x12), .alr (.zpx 0x12),
    .cli, .eor (.absy 0x3412), .nopInert 0x5A none, .alr (.absy 0x3412),
    .nopInert 0x5C (some (.absx 0x3412)), .eor (.absx 0x3412), .lsr (.absx 0x3412), .alr (.absx 0x3412)] : List Instr).map some := by decide

theorem test_opcode_row_6 : opcodeRow 0x6 = ([
    .rts, .adc (.indx 0x12), .ror (.imm 0x12), .arr (.indx 0x12),
    .nopInert 0x64 (some (.zp 0x12)), .adc (.zp 0x12), .ror (.zp 0x12), .arr (.zp 0x12),
    .pla, .adc (.imm 0x12), .ror .acc, .arr (.imm 0x12),
    .jmp (.ind 0x3412), .adc (.abs 0x3412), .ror (.abs 0x3412), .arr (.abs 0x3412)] : List Instr).map some := by decide

theorem test_opcode_row_7 : opcodeRow 0x7 = ([
    .bvs 0x12, .adc (.indy 0x12), .gap 0x72, .arr (.indy 0x12),
    .nopInert 0x74 (some (.zpx 0x12)), .adc (.zpx 0x12), .ror (.zpx 0x12), .arr (.zpx 0x12),
    .sei, .adc (.absy 0x3412), .nopInert 0x7A none, .arr (.absy 0x3412),
    .nopInert 0x7C (some (.absx 0x3412)), .adc (.absx 0x3412), .ror (.absx 0x3412), .arr (.absx 0x3412)] : List Instr).map some := by decide

theorem test_opcode_row_8 : opcodeRow 0x8 = ([
    .nopInert 0x80 (some (.imm 0x12)), .sta (.indx 0x12), .nopInert 0x82 (some (.imm 0x12)), .sax (.indx 0x12),
    .sty (.zp 0x12), .sta (.zp 0x12), .stx (.zp 0x12), .sax (.zp 0x12),
    .dey, .nopInert 0x89 (some (.imm 0x12)), .txa, .sax (.imm 0x12),
    .sty (.abs 0x3412), .sta (.abs 0x3412), .stx (.abs 0x3412), .sax (.abs 0x3412)] : List Instr).map some := by decide

theorem test_opcode_row_9 : opcodeRow 0x9 = ([
    .bcc 0x12, .sta (.indy 0x12), .gap 0x92, .sax (.indy 0x12),
    .sty (.zpx 0x12), .sta (.zpx 0x12), .stx (.zpy 0x12), .sax (.zpy 0x12),
    .tya, .sta (.absy 0x3412), .txs, .sax (.absy 0x3412),
    .sty (.absx 0x3412), .sta (.absx 0x3412), .stx (.absx 0x3412), .sax (.absx 0x3412)] : List Instr).map some := by decide

theorem test_opcode_row_A : opcodeRow 0xA = ([
    .ldy (.imm 0x12), .lda (.indx 0x12), .ldx (.imm 0x12), .las 0xA3 (.indx 0x12),
    .ldy (.zp 0x12), .lda (.zp 0x12), .ldx (.zp 0x12), .las 0xA7 (.zp 0x12),
    .tay, .lda (.imm 0x12), .tax, .las 0xAB (.imm 0x12),
    .ldy (.abs 0x3412), .lda (.abs 0x3412), .ldx (.abs 0x3412), .las 0xAF (.abs 0x3412)] : List Instr).map some := by decide

theorem test_opcode_row_B : opcodeRow 0xB = ([
    .bcs 0x12, .lda (.indy 0x12), .gap 0xB2, .las 0xB3 (.indy 0x12),
    .ldy (.zpx 0x12), .lda (.zpx 0x12), .ldx (.zpy 0x12), .las 0xB7 (.zpy 0x12),
    .clv, .lda (.absy 0x3412), .tsx, .las 0xBB (.absy 0x3412),
    .ldy (.absx 0x3412), .lda (.absx 0x3412), .ldx (.absy 0x3412), .las 0xBF (.absy 0x3412)] : List Instr).map some := by decide

theorem test_opcode_row_C : opcodeRow 0xC = ([
    .cpy (.imm 0x12), .cmp (.indx 0x12), .nopInert 0xC2 (some (.imm 0x12)), .axs (.indx 0x12),
    .cpy (.zp 0x12), .cmp (.zp 0x12), .dec (.zp 0x12), .axs (.zp 0x12),
    .iny, .cmp (.imm 0x12), .dex, .axs (.imm 0x12),
    .cpy (.abs 0x3412), .cmp (.abs 0x3412), .dec (.abs 0x3412), .axs (.abs 0x3412)] : List Instr).map some := by decide

theorem test_opcode_row_D : opcodeRow 0xD = ([
    .bne 0x12, .cmp (.indy 0x12), .gap 0xD2, .axs (.indy 0x12),
    .nopInert 0xD4 (some (.zpx 0x12)), .cmp (.zpx 0x12), .dec (.zpx 0x12), .axs (.zpx 0x12),
    .cld, .cmp (.absy 0x3412), .nopInert 0xDA none, .axs (.absy 0x3412),
    .nopInert 0xDC (some (.absx 0x3412)), .cmp (.absx 0x3412), .dec (.absx 0x3412), .axs (.absx 0x3412)] : List Instr).map some := by decide

theorem test_opcode_row_E : opcodeRow 0xE = ([
    .cpx (.imm 0x12), .sbc (.indx 0x12), .nopInert 0xE2 (some (.imm 0x12)), .sbcUndoc (.indx 0x12),
    .cpx (.zp 0x12), .sbc (.zp 0x12), .inc (.zp 0x12), .sbcUndoc (.zp 0x12),
    .inx, .sbc (.imm 0x12), .nop, .sbcUndoc (.imm 0x12),
    .cpx (.abs 0x3412), .sbc (.abs 0x3412), .inc (.abs 0x3412), .sbcUndoc (.abs 0x3412)] : List Instr).map some := by decide

theorem test_opcode_row_F : opcodeRow 0xF = ([
    .beq 0x12, .sbc (.indy 0x12), .gap 0xF2, .sbcUndoc (.indy 0x12),
    .nopInert 0xF4 (some (.zpx 0x12)), .sbc (.zpx 0x12), .inc (.zpx 0x12), .sbcUndoc (.zpx 0x12),
    .sed, .sbc (.absy 0x3412), .nopInert 0xFA none, .sbcUndoc (.absy 0x3412),
    .nopInert 0xFC (some (.absx 0x3412)), .sbc (.absx 0x3412), .inc (.absx 0x3412), .sbcUndoc (.absx 0x3412)] : List Instr).map some := by decide

theorem test_tableWord_numbers_first_byte_lowest :
    decodeTableWord 24 0x12349D = some (.sta (.absx 0x1234)) ∧ decodeTableWord 8 0xFF60 = some .rts ∧
    decodeTableWord 8 0xA9 = some (.lda (.imm 0)) := by decide

theorem test_truncated_bytes_are_refused :
    (match decode [0x4C, 0x00] with | .error e => e == .truncated 0x4C | .ok _ => false) = true := by decide

/-! ## The vectors of spec/95_test_vectors.md, part L2 (and L1.3, L1.6): one step each, the whole state compared -/

/-- The common set-up of 95_test_vectors.md: `L = 0x4000`, vectors 0x8000 and 0x9000, PC = 0x0200 with the bytes
stored there, the registers and the further RAM bytes given. -/
def start (bytes : List Byte) (a x y sp p : Byte) (mem : List (Nat × Byte)) : State where
  a := a
  x := x
  y := y
  sp := sp
  pc := 0x0200
  p := p
  ram := mem.foldl (fun m c => Memory.write m c.1 c.2) (Memory.ofBytes 0x0200 bytes)
  prg := [(0x3FFD, 0x80), (0x3FFF, 0x90)]
  prgLen := 0x4000
  trace := false

/-- The step leaves the registers, PC and count given, and changes of RAM only the bytes given. -/
def gives (s : State) (a x y sp p : Byte) (pc : Word) (cycles : Nat) (changed : List (Nat × Byte)) : Bool :=
  match stepTimed s with
  | .next (t, c) =>
    t == { s with a := a, x := x, y := y, sp := sp, p := p, pc := pc,
                  ram := changed.foldl (fun m b => Memory.write m b.1 b.2) s.ram } && c == cycles
  | _ => false

/-- The step ends in the fault given. -/
def faultsWith (s : State) (f : Fault) : Bool :=
  match stepTimed s with
  | .fault g => g == f
  | _ => false

theorem test_vectors_addressing_1 :
    [gives (start [0xA9, 0x42] 0x00 0x00 0x00 0xFD 0x24 []) 0x42 0x00 0x00 0xFD 0x24 0x0202 2 [],
     gives (start [0xA5, 0x10] 0x00 0x00 0x00 0xFD 0x24 [(0x0010, 0x80)]) 0x80 0x00 0x00 0xFD 0xA4 0x0202 3 [],
     gives (start [0xB5, 0xF0] 0x00 0x20 0x00 0xFD 0x24 [(0x0010, 0x33)]) 0x33 0x20 0x00 0xFD 0x24 0x0202 4 [],
     gives (start [0xAD, 0x34, 0x12] 0x00 0x00 0x00 0xFD 0x24 [(0x1234, 0x01)]) 0x01 0x00 0x00 0xFD 0x24 0x0203 4 [],
     gives (start [0xBD, 0xFF, 0x10] 0x00 0x01 0x00 0xFD 0x24 [(0x1100, 0x55)]) 0x55 0x01 0x00 0xFD 0x24 0x0203 4 [],
     gives (start [0xB9, 0xFF, 0xFF] 0x00 0x00 0x02 0xFD 0x24 [(0x0001, 0x77)]) 0x77 0x00 0x02 0xFD 0x24 0x0203 4 [],
     gives (start [0xA1, 0xFE] 0x00 0x03 0x00 0xFD 0x24 [(0x0001, 0x00), (0x0002, 0x30), (0x3000, 0x99)]) 0x99 0x03 0x00 0xFD 0xA4 0x0202 6 [],
     gives (start [0xA1, 0xFF] 0x00 0x00 0x00 0xFD 0x24 [(0x00FF, 0x00), (0x0000, 0x31), (0x3100, 0x5A)]) 0x5A 0x00 0x00 0xFD 0x24 0x0202 6 []].all id = true := by decide

theorem test_vectors_addressing_2 :
    [gives (start [0xB1, 0xFF] 0x00 0x00 0x10 0xFD 0x24 [(0x00FF, 0xF8), (0x0000, 0x30), (0x3108, 0xC3)]) 0xC3 0x00 0x10 0xFD 0xA4 0x0202 5 [],
     gives (start [0xB6, 0x10] 0x00 0x00 0x05 0xFD 0x24 [(0x0015, 0x66), (0x0010, 0x11)]) 0x00 0x66 0x05 0xFD 0x24 0x0202 4 [],
     gives (start [0xBE, 0x00, 0x30] 0x00 0x07 0x01 0xFD 0x24 [(0x3001, 0x08), (0x3007, 0xEE)]) 0x00 0x08 0x01 0xFD 0x24 0x0203 4 [],
     gives ({ start [0xAD, 0x00, 0x80] 0x00 0x00 0x00 0xFD 0x24 [] with prg := [(0, 0xAB), (0x3FFD, 0x80), (0x3FFF, 0x90)] }) 0xAB 0x00 0x00 0xFD 0xA4 0x0203 4 [],
     gives ({ start [0xAD, 0x00, 0xC0] 0x00 0x00 0x00 0xFD 0x24 [] with prg := [(0, 0xAB), (0x3FFD, 0x80), (0x3FFF, 0x90)] }) 0xAB 0x00 0x00 0xFD 0xA4 0x0203 4 [],
     gives ({ start [0xAD, 0xFF, 0xFF] 0x00 0x00 0x00 0xFD 0x24 [] with prg := [(0, 0x11), (1, 0x22), (2, 0x33)], prgLen := 3 }) 0x22 0x00 0x00 0xFD 0x24 0x0203 4 []].all id = true := by decide

theorem test_vectors_group01_1 :
    [gives (start [0x09, 0x0F] 0xF0 0x00 0x00 0xFD 0x24 []) 0xFF 0x00 0x00 0xFD 0xA4 0x0202 2 [],
     gives (start [0x29, 0x0F] 0xF0 0x00 0x00 0xFD 0x24 []) 0x00 0x00 0x00 0xFD 0x26 0x0202 2 [],
     gives (start [0x49, 0xFF] 0x7F 0x00 0x00 0xFD 0x24 []) 0x80 0x00 0x00 0xFD 0xA4 0x0202 2 [],
     gives (start [0x69, 0x50] 0x50 0x00 0x00 0xFD 0x24 []) 0xA0 0x00 0x00 0xFD 0xE4 0x0202 2 [],
     gives (start [0x69, 0x01] 0xFF 0x00 0x00 0xFD 0x24 []) 0x00 0x00 0x00 0xFD 0x27 0x0202 2 [],
     gives (start [0x69, 0x00] 0x7F 0x00 0x00 0xFD 0x25 []) 0x80 0x00 0x00 0xFD 0xE4 0x0202 2 [],
     gives (start [0x69, 0xFF] 0x80 0x00 0x00 0xFD 0x24 []) 0x7F 0x00 0x00 0xFD 0x65 0x0202 2 [],
     gives (start [0x69, 0x01] 0x09 0x00 0x00 0xFD 0x2C []) 0x0A 0x00 0x00 0xFD 0x2C 0x0202 2 []].all id = true := by decide

theorem test_vectors_group01_2 :
    [gives (start [0xE9, 0x01] 0x00 0x00 0x00 0xFD 0x25 []) 0xFF 0x00 0x00 0xFD 0xA4 0x0202 2 [],
     gives (start [0xE9, 0x03] 0x05 0x00 0x00 0xFD 0x25 []) 0x02 0x00 0x00 0xFD 0x25 0x0202 2 [],
     gives (start [0xE9, 0x03] 0x05 0x00 0x00 0xFD 0x24 []) 0x01 0x00 0x00 0xFD 0x25 0x0202 2 [],
     gives (start [0xE9, 0x01] 0x80 0x00 0x00 0xFD 0x25 []) 0x7F 0x00 0x00 0xFD 0x65 0x0202 2 [],
     gives (start [0xE9, 0xFF] 0x7F 0x00 0x00 0xFD 0x25 []) 0x80 0x00 0x00 0xFD 0xE4 0x0202 2 [],
     gives (start [0x85, 0x10] 0x00 0x00 0x00 0xFD 0x24 []) 0x00 0x00 0x00 0xFD 0x24 0x0202 3 [],
     faultsWith (start [0x8D, 0x00, 0x80] 0x01 0x00 0x00 0xFD 0x24 []) (.romWrite 0x8000),
     faultsWith (start [0x9D, 0xFF, 0x7F] 0x00 0x01 0x00 0xFD 0x24 []) (.romWrite 0x8000)].all id = true := by decide

theorem test_vectors_group01_3 :
    [gives (start [0xA9, 0x00] 0x00 0x00 0x00 0xFD 0xA4 []) 0x00 0x00 0x00 0xFD 0x26 0x0202 2 [],
     gives (start [0xC9, 0x40] 0x40 0x00 0x00 0xFD 0x24 []) 0x40 0x00 0x00 0xFD 0x27 0x0202 2 [],
     gives (start [0xC9, 0x41] 0x40 0x00 0x00 0xFD 0x24 []) 0x40 0x00 0x00 0xFD 0xA4 0x0202 2 [],
     gives (start [0xC9, 0x01] 0x80 0x00 0x00 0xFD 0x24 []) 0x80 0x00 0x00 0xFD 0x25 0x0202 2 [],
     gives (start [0xC9, 0xFF] 0x01 0x00 0x00 0xFD 0x24 []) 0x01 0x00 0x00 0xFD 0x24 0x0202 2 []].all id = true := by decide

theorem test_vectors_group10_00_1 :
    [gives (start [0x0A] 0x80 0x00 0x00 0xFD 0x24 []) 0x00 0x00 0x00 0xFD 0x27 0x0201 2 [],
     gives (start [0x06, 0x10] 0x00 0x00 0x00 0xFD 0x24 [(0x0010, 0x41)]) 0x00 0x00 0x00 0xFD 0xA4 0x0202 5 [(0x0010, 0x82)],
     gives (start [0x2A] 0x80 0x00 0x00 0xFD 0x25 []) 0x01 0x00 0x00 0xFD 0x25 0x0201 2 [],
     gives (start [0x4A] 0x01 0x00 0x00 0xFD 0x24 []) 0x00 0x00 0x00 0xFD 0x27 0x0201 2 [],
     gives (start [0x6A] 0x01 0x00 0x00 0xFD 0x25 []) 0x80 0x00 0x00 0xFD 0xA5 0x0201 2 [],
     gives (start [0x76, 0x0F] 0x00 0x01 0x00 0xFD 0x24 [(0x0010, 0x02)]) 0x00 0x01 0x00 0xFD 0x24 0x0202 6 [(0x0010, 0x01)],
     faultsWith (start [0x02, 0x10] 0x00 0x00 0x00 0xFD 0x24 []) (.constantWrite 0x10),
     faultsWith (start [0x22, 0x10] 0x00 0x00 0x00 0xFD 0x24 []) (.constantWrite 0x10)].all id = true := by decide

theorem test_vectors_group10_00_2 :
    [faultsWith (start [0x42, 0x01] 0x00 0x00 0x00 0xFD 0x24 []) (.constantWrite 0x01),
     faultsWith (start [0x62, 0xFF] 0x00 0x00 0x00 0xFD 0x24 []) (.constantWrite 0xFF),
     faultsWith (start [0xEE, 0x00, 0x80] 0x00 0x00 0x00 0xFD 0x24 []) (.romWrite 0x8000),
     gives (start [0x96, 0x10] 0x00 0xAA 0x02 0xFD 0x24 []) 0x00 0xAA 0x02 0xFD 0x24 0x0202 4 [(0x0012, 0xAA)],
     gives (start [0x9E, 0x00, 0x30] 0x00 0x05 0x00 0xFD 0x24 []) 0x00 0x05 0x00 0xFD 0x24 0x0203 5 [(0x3005, 0x05)],
     gives (start [0x9C, 0x00, 0x30] 0x00 0x05 0x77 0xFD 0x24 []) 0x00 0x05 0x77 0xFD 0x24 0x0203 5 [(0x3005, 0x77)],
     gives (start [0xA2, 0x80] 0x00 0x00 0x00 0xFD 0x24 []) 0x00 0x80 0x00 0xFD 0xA4 0x0202 2 [],
     gives (start [0xBC, 0x00, 0x30] 0x00 0x02 0x00 0xFD 0xA4 [(0x3002, 0x00)]) 0x00 0x02 0x00 0xFD 0x26 0x0203 4 []].all id = true := by decide

theorem test_vectors_group10_00_3 :
    [gives (start [0xC6, 0x10] 0x00 0x00 0x00 0xFD 0x24 []) 0x00 0x00 0x00 0xFD 0xA4 0x0202 5 [(0x0010, 0xFF)],
     gives (start [0xE6, 0x10] 0x00 0x00 0x00 0xFD 0x24 [(0x0010, 0xFF)]) 0x00 0x00 0x00 0xFD 0x26 0x0202 5 [(0x0010, 0x00)],
     gives (start [0xFE, 0x00, 0x30] 0x00 0x01 0x00 0xFD 0x24 [(0x3001, 0x7F)]) 0x00 0x01 0x00 0xFD 0xA4 0x0203 7 [(0x3001, 0x80)],
     gives (start [0x24, 0x10] 0x01 0x00 0x00 0xFD 0x24 [(0x0010, 0xC0)]) 0x01 0x00 0x00 0xFD 0xE6 0x0202 3 [],
     gives (start [0x2C, 0x00, 0x30] 0x41 0x00 0x00 0xFD 0xE6 [(0x3000, 0x41)]) 0x41 0x00 0x00 0xFD 0x64 0x0203 4 [],
     gives (start [0xC0, 0x10] 0x00 0x00 0x10 0xFD 0x24 []) 0x00 0x00 0x10 0xFD 0x27 0x0202 2 [],
     gives (start [0xE4, 0x10] 0x00 0x20 0x00 0xFD 0x24 [(0x0010, 0x10)]) 0x00 0x20 0x00 0xFD 0x25 0x0202 3 [],
     gives (start [0xE0, 0x21] 0x00 0x20 0x00 0xFD 0x24 []) 0x00 0x20 0x00 0xFD 0xA4 0x0202 2 []].all id = true := by decide

theorem test_vectors_group11_1 :
    [gives (start [0x87, 0x10] 0xF0 0x3C 0x00 0xFD 0x24 []) 0xF0 0x3C 0x00 0xFD 0x24 0x0202 3 [(0x0010, 0x30)],
     gives (start [0x97, 0x10] 0xFF 0x0F 0x01 0xFD 0x24 []) 0xFF 0x0F 0x01 0xFD 0x24 0x0202 4 [(0x0011, 0x0F)],
     gives (start [0x83, 0x20] 0x0F 0x03 0x00 0xFD 0x24 [(0x0023, 0x00), (0x0024, 0x30)]) 0x0F 0x03 0x00 0xFD 0x24 0x0202 6 [(0x3000, 0x03)],
     gives (start [0x9F, 0x00, 0x30] 0x81 0x83 0x02 0xFD 0x24 []) 0x81 0x83 0x02 0xFD 0x24 0x0203 5 [(0x3083, 0x81)],
     gives (start [0x93, 0x20] 0x81 0x83 0x01 0xFD 0x24 [(0x0020, 0x00), (0x0021, 0x30)]) 0x81 0x83 0x01 0xFD 0x24 0x0202 6 [(0x3001, 0x81)],
     gives (start [0x9B, 0x00, 0x30] 0xC3 0x0F 0x03 0xFD 0x24 []) 0xC3 0x0F 0x03 0xFD 0x24 0x0203 5 [(0x3003, 0x03)],
     faultsWith (start [0x8B, 0x10] 0x00 0x00 0x00 0xFD 0x24 []) (.constantWrite 0x10),
     gives (start [0x07, 0x10] 0x01 0x00 0x00 0xFD 0x24 [(0x0010, 0x80)]) 0x01 0x00 0x00 0xFD 0x24 0x0202 5 []].all id = true := by decide

theorem test_vectors_group11_2 :
    [gives (start [0x0B, 0xFF] 0x80 0x00 0x00 0xFD 0x24 []) 0x80 0x00 0x00 0xFD 0x24 0x0202 2 [],
     gives (start [0x4B, 0x03] 0xFF 0x00 0x00 0xFD 0x24 []) 0xFF 0x00 0x00 0xFD 0x24 0x0202 2 [],
     gives (start [0x6F, 0x00, 0x30] 0x00 0x00 0x00 0xFD 0x24 [(0x3000, 0x01)]) 0x00 0x00 0x00 0xFD 0x24 0x0203 6 [],
     gives (start [0xA7, 0x10] 0x00 0x00 0x00 0xFD 0x24 [(0x0010, 0x55)]) 0x00 0x00 0x00 0xFD 0x24 0x0202 3 [],
     gives (start [0xCB, 0x01] 0xFF 0xFF 0x00 0xFD 0x24 []) 0xFF 0xFF 0x00 0xFD 0x24 0x0202 2 [],
     gives (start [0xEB, 0x01] 0x05 0x00 0x00 0xFD 0x25 []) 0x05 0x00 0x00 0xFD 0x25 0x0202 2 [],
     gives (start [0xFF, 0x00, 0x80] 0x00 0x00 0x00 0xFD 0x24 []) 0x00 0x00 0x00 0xFD 0x24 0x0203 7 []].all id = true := by decide

theorem test_vectors_control_flow_1 :
    [gives (start [0x4C, 0x34, 0x12] 0x00 0x00 0x00 0xFD 0x24 []) 0x00 0x00 0x00 0xFD 0x24 0x1234 3 [],
     gives (start [0x6C, 0x00, 0x30] 0x00 0x00 0x00 0xFD 0x24 [(0x3000, 0x78), (0x3001, 0x56)]) 0x00 0x00 0x00 0xFD 0x24 0x5678 5 [],
     gives (start [0x6C, 0xFF, 0x30] 0x00 0x00 0x00 0xFD 0x24 [(0x30FF, 0x00), (0x3000, 0x40), (0x3100, 0x50)]) 0x00 0x00 0x00 0xFD 0x24 0x4000 5 [],
     gives (start [0x20, 0x00, 0x30] 0x00 0x00 0x00 0xFD 0x24 []) 0x00 0x00 0x00 0xFB 0x24 0x3000 6 [(0x01FC, 0x02), (0x01FD, 0x02)],
     gives (start [0x60] 0x00 0x00 0x00 0xFB 0x24 [(0x01FC, 0x02), (0x01FD, 0x30)]) 0x00 0x00 0x00 0xFD 0x24 0x3003 6 [],
     gives (start [0x40] 0x00 0x00 0x00 0xFA 0x24 [(0x01FB, 0xDF), (0x01FC, 0x34), (0x01FD, 0x12)]) 0x00 0x00 0x00 0xFD 0xEF 0x1234 6 [],
     gives (start [0x00, 0xEA] 0x00 0x00 0x00 0xFD 0x20 []) 0x00 0x00 0x00 0xFA 0x24 0x9000 7 [(0x01FB, 0x30), (0x01FC, 0x02), (0x01FD, 0x02)],
     gives (start [0xD0, 0x10] 0x00 0x00 0x00 0xFD 0x26 []) 0x00 0x00 0x00 0xFD 0x26 0x0202 2 []].all id = true := by decide

theorem test_vectors_control_flow_2 :
    [gives (start [0xD0, 0x10] 0x00 0x00 0x00 0xFD 0x24 []) 0x00 0x00 0x00 0xFD 0x24 0x0212 3 [],
     gives (start [0xF0, 0xFC] 0x00 0x00 0x00 0xFD 0x26 []) 0x00 0x00 0x00 0xFD 0x26 0x01FE 4 [],
     gives (start [0xB0, 0xF0] 0x00 0x00 0x00 0xFD 0x25 []) 0x00 0x00 0x00 0xFD 0x25 0x01F2 4 [],
     gives (start [0x10, 0x7F] 0x00 0x00 0x00 0xFD 0x24 []) 0x00 0x00 0x00 0xFD 0x24 0x0281 3 [],
     gives (start [0x30, 0x80] 0x00 0x00 0x00 0xFD 0xA4 []) 0x00 0x00 0x00 0xFD 0xA4 0x0182 4 [],
     gives (start [0x50, 0x02] 0x00 0x00 0x00 0xFD 0x64 []) 0x00 0x00 0x00 0xFD 0x64 0x0202 2 [],
     gives (start [0x70, 0x02] 0x00 0x00 0x00 0xFD 0x64 []) 0x00 0x00 0x00 0xFD 0x64 0x0204 3 [],
     gives (start [0x90, 0x02] 0x00 0x00 0x00 0xFD 0x24 []) 0x00 0x00 0x00 0xFD 0x24 0x0204 3 []].all id = true := by decide

theorem test_vectors_implied_1 :
    [gives (start [0xAA] 0x00 0x05 0x00 0xFD 0x24 []) 0x00 0x00 0x00 0xFD 0x26 0x0201 2 [],
     gives (start [0x8A] 0x00 0x80 0x00 0xFD 0x24 []) 0x80 0x80 0x00 0xFD 0xA4 0x0201 2 [],
     gives (start [0xA8] 0x7F 0x00 0x00 0xFD 0x24 []) 0x7F 0x00 0x7F 0xFD 0x24 0x0201 2 [],
     gives (start [0x98] 0x01 0x00 0x00 0xFD 0x24 []) 0x00 0x00 0x00 0xFD 0x26 0x0201 2 [],
     gives (start [0xBA] 0x00 0x00 0x00 0x80 0x24 []) 0x00 0x80 0x00 0x80 0xA4 0x0201 2 [],
     gives (start [0x9A] 0x00 0x00 0x00 0xFD 0xA4 []) 0x00 0x00 0x00 0x00 0xA4 0x0201 2 [],
     gives (start [0x18] 0x00 0x00 0x00 0xFD 0x25 []) 0x00 0x00 0x00 0xFD 0x24 0x0201 2 [],
     gives (start [0x38] 0x00 0x00 0x00 0xFD 0x24 []) 0x00 0x00 0x00 0xFD 0x25 0x0201 2 []].all id = true := by decide

theorem test_vectors_implied_2 :
    [gives (start [0x58] 0x00 0x00 0x00 0xFD 0x24 []) 0x00 0x00 0x00 0xFD 0x20 0x0201 2 [],
     gives (start [0x78] 0x00 0x00 0x00 0xFD 0x20 []) 0x00 0x00 0x00 0xFD 0x24 0x0201 2 [],
     gives (start [0xB8] 0x00 0x00 0x00 0xFD 0x64 []) 0x00 0x00 0x00 0xFD 0x24 0x0201 2 [],
     gives (start [0xD8] 0x00 0x00 0x00 0xFD 0x2C []) 0x00 0x00 0x00 0xFD 0x24 0x0201 2 [],
     gives (start [0xF8] 0x00 0x00 0x00 0xFD 0x24 []) 0x00 0x00 0x00 0xFD 0x2C 0x0201 2 [],
     gives (start [0x48] 0x9C 0x00 0x00 0xFD 0x24 []) 0x9C 0x00 0x00 0xFC 0x24 0x0201 3 [(0x01FD, 0x9C)],
     gives (start [0x08] 0x00 0x00 0x00 0xFD 0x24 []) 0x00 0x00 0x00 0xFC 0x24 0x0201 3 [(0x01FD, 0x34)],
     gives (start [0x68] 0x55 0x00 0x00 0xFC 0x24 [(0x01FD, 0x00)]) 0x00 0x00 0x00 0xFD 0x26 0x0201 4 []].all id = true := by decide

theorem test_vectors_implied_3 :
    [gives (start [0x28] 0x00 0x00 0x00 0xFC 0x24 [(0x01FD, 0xFF)]) 0x00 0x00 0x00 0xFD 0xEF 0x0201 4 [],
     gives (start [0x28] 0x00 0x00 0x00 0xFC 0x24 [(0x01FD, 0x00)]) 0x00 0x00 0x00 0xFD 0x20 0x0201 4 [],
     gives (start [0x48] 0x11 0x00 0x00 0x00 0x24 []) 0x11 0x00 0x00 0xFF 0x24 0x0201 3 [(0x0100, 0x11)],
     gives (start [0x68] 0x00 0x00 0x00 0xFF 0x24 [(0x0100, 0x80)]) 0x80 0x00 0x00 0x00 0xA4 0x0201 4 [],
     gives (start [0xE8] 0x00 0xFF 0x00 0xFD 0x24 []) 0x00 0x00 0x00 0xFD 0x26 0x0201 2 [],
     gives (start [0xC8] 0x00 0x00 0x7F 0xFD 0x24 []) 0x00 0x00 0x80 0xFD 0xA4 0x0201 2 [],
     gives (start [0xCA] 0x00 0x01 0x00 0xFD 0x24 []) 0x00 0x00 0x00 0xFD 0x26 0x0201 2 [],
     gives (start [0x88] 0x00 0x00 0x00 0xFD 0x24 []) 0x00 0x00 0xFF 0xFD 0xA4 0x0201 2 []].all id = true := by decide

theorem test_vectors_implied_4 :
    [gives (start [0xEA] 0x00 0x00 0x00 0xFD 0xE7 []) 0x00 0x00 0x00 0xFD 0xE7 0x0201 2 [],
     gives (start [0x1A] 0x01 0x00 0x00 0xFD 0x24 []) 0x01 0x00 0x00 0xFD 0x24 0x0201 2 [],
     gives (start [0x80, 0xFF] 0x00 0x00 0x00 0xFD 0x24 []) 0x00 0x00 0x00 0xFD 0x24 0x0202 2 [],
     gives (start [0x04, 0x10] 0x00 0x00 0x00 0xFD 0x24 []) 0x00 0x00 0x00 0xFD 0x24 0x0202 3 [],
     gives (start [0x14, 0x10] 0x00 0x00 0x00 0xFD 0x24 []) 0x00 0x00 0x00 0xFD 0x24 0x0202 4 [],
     gives (start [0x0C, 0x00, 0x80] 0x00 0x00 0x00 0xFD 0x24 []) 0x00 0x00 0x00 0xFD 0x24 0x0203 4 [],
     gives (start [0x1C, 0xFF, 0x7F] 0x00 0x01 0x00 0xFD 0x24 []) 0x00 0x01 0x00 0xFD 0x24 0x0203 4 [],
     gives (start [0x12, 0x34] 0x00 0x00 0x00 0xFD 0x24 []) 0x00 0x00 0x00 0xFD 0x24 0x0201 2 []].all id = true := by decide

theorem test_vectors_implied_5 :
    [gives (start [0xF2] 0x00 0x00 0x00 0xFD 0x24 []) 0x00 0x00 0x00 0xFD 0x24 0x0201 2 []].all id = true := by decide

/-! ## Witnesses: for every obligation with hypotheses, concrete values that meet all of them together, one for each
clause and at the ends of its range -/

/-- What a state is after an instruction that completes there. -/
def after (i : Instr) (s : State) : State :=
  match exec i s with
  | .next t => t
  | _ => s

/-- The instruction completes at the state. -/
def completes (i : Instr) (s : State) : Bool :=
  match exec i s with
  | .next _ => true
  | _ => false

theorem exec_after {i : Instr} {s : State} (h : completes i s = true) : exec i s = .next (after i s) := by
  unfold completes at h
  unfold after
  split at h
  · next he => rw [he]
  · cases h

theorem step_after {s : State} (h : completes (fetchInstr s) s = true) :
    step s = .next (after (fetchInstr s) s) := exec_after h

/-- The fault of an instruction that stops. -/
def stopsWith (i : Instr) (s : State) (f : Fault) : Bool :=
  match exec i s with
  | .fault g => g == f
  | _ => false

theorem exec_stopsWith {i : Instr} {s : State} {f : Fault} (h : stopsWith i s f = true) : exec i s = .fault f := by
  unfold stopsWith at h
  split at h
  · next he => rw [he, eq_of_beq h]
  · cases h

theorem step_stopsWith {s : State} {f : Fault} (h : stopsWith (fetchInstr s) s f = true) : step s = .fault f :=
  exec_stopsWith h

/-- Small states: one instruction at 0x0200, A = 1, X = 2, Y = 3. -/
def at0 (bytes : List Byte) : State := start bytes 0x01 0x02 0x03 0xFD 0x24 []

theorem witness_DecodeOfEncodeIsTheInstruction :
    (Instr.sta (.absx 0x7FFF)).WellFormed = true ∧ (Instr.las 0xBF (.absy 0xFFFF)).WellFormed = true ∧
    (Instr.gap 0xF2).WellFormed = true := by decide

theorem witness_YOverrideIsExactlySixOpcodes :
    [0x96, 0x94].map (fun op : Byte => cellMode (bbbOf op) (ccOf op)) = [some .zeroPageX, some .zeroPageX] ∧
    [0xBE, 0xBC].map (fun op : Byte => cellMode (bbbOf op) (ccOf op)) = [some .absoluteX, some .absoluteX] ∧
    [0xA5, 0x12].map (fun op : Byte => cellMode (bbbOf op) (ccOf op)) = [some .zeroPage, none] := by decide

theorem witness_StepRunsTheDecodedInstruction :
    decode (fetchBytes (at0 [0xA9, 0x10, 0x77])) = .ok (.lda (.imm 0x10), [0x77]) := by decide

theorem witness_FetchWordIsRunByTheNextStep :
    decodeTableWord 16 0x10A9 = some (.lda (.imm 0x10)) ∧ decodeTableWord 8 0xEA = some .nop ∧
    fetchInstr (State.reset.withFetchWord 24 0x34128D) = .sta (.abs 0x3412) := by decide

theorem witness_StepFaultsExactlyOnForbiddenWrites :
    step (at0 [0x9D, 0xFE, 0x7F]) = .fault (.romWrite 0x8000) ∧ step (at0 [0x8B, 0x55]) = .fault (.constantWrite 0x55) ∧
    Instr.writes (fetchInstr (at0 [0x9D, 0xFE, 0x7F])) = some (.absx 0x7FFE) ∧
    Loc.fault (resolve (.absx 0x7FFE) (at0 [0x9D, 0xFE, 0x7F])) = some (.romWrite 0x8000) ∧
    Loc.fault (resolve (.absx 0x7FFD) (at0 [0x9D, 0xFD, 0x7F])) = none :=
  ⟨step_stopsWith (by decide), step_stopsWith (by decide), by decide, by decide, by decide⟩

theorem witness_ConstantWriteIsRaisedByFiveOpcodes :
    step (at0 [0x02, 0x00]) = .fault (.constantWrite 0x00) ∧ step (at0 [0x22, 0xFF]) = .fault (.constantWrite 0xFF) ∧
    step (at0 [0x42, 0x01]) = .fault (.constantWrite 0x01) ∧ step (at0 [0x62, 0x80]) = .fault (.constantWrite 0x80) ∧
    step (at0 [0x8B, 0x7F]) = .fault (.constantWrite 0x7F) :=
  ⟨step_stopsWith (by decide), step_stopsWith (by decide), step_stopsWith (by decide), step_stopsWith (by decide),
    step_stopsWith (by decide)⟩

theorem witness_StepsWithoutStoreComplete :
    [0x00, 0x80, 0x12].map classOf = [.direct, .inert, .gap] ∧ classOf 0xA5 = .resolved ∧
    Instr.writes (fetchInstr (at0 [0xA5, 0x10])) = none := by decide

theorem witness_ConstructionMakesTheWholeState :
    (∃ s, construct Config.resetParams = .ok s) ∧
    (∃ s, construct { Config.resetParams with prg := [0x11, 0x22, 0x33], pc0 := some 0xC000 } = .ok s) ∧
    construct { Config.resetParams with prg := [] } = .error .emptyImage ∧ 0 < 0x8000 ∧ 0x7FFF < 0x8000 := by
  have made : ∀ q : Config.Params, q.prg.length ≠ 0 → ∃ s, construct q = .ok s := fun q h => by
    unfold construct
    rw [if_neg h]
    exact ⟨_, rfl⟩
  have filled : Config.resetParams.prg.length = 0x8000 := List.length_replicate
  exact ⟨made _ fun h => absurd (filled.symm.trans h) (by decide), made _ (by decide), rfl, by decide, by decide⟩

theorem witness_StepKeepsTheInvariant :
    (at0 [0x8D, 0x00, 0x03]).Inv ∧
    step (at0 [0x8D, 0x00, 0x03]) = .next (after (.sta (.abs 0x0300)) (at0 [0x8D, 0x00, 0x03])) :=
  ⟨by decide, step_after (by decide)⟩

theorem witness_ReachableStatesMeetTheInvariant : ∃ s, Reachable s ∧ s.a = 0xFF := by
  obtain ⟨s, hs⟩ := witness_ConstructionMakesTheWholeState.1
  exact ⟨applyHost (.setA 0xFF) s, .host (.setA 0xFF) (.construct hs), rfl⟩

theorem witness_InstructionsKeepImageAndTrace :
    exec .brk (at0 [0x00]) = .next (after .brk (at0 [0x00])) ∧
    exec (.inc (.abs 0x7FFF)) (at0 []) = .next (after (.inc (.abs 0x7FFF)) (at0 [])) :=
  ⟨exec_after (by decide), exec_after (by decide)⟩

theorem witness_PrgRomMirrorsTheImage :
    0 < (at0 []).prgLen ∧ (at0 []).prgLen = 0x4000 ∧ 0 < 0x8000 ∧ 0x7FFF < 0x8000 ∧
    (∃ s, construct { Config.resetParams with prg := [0x11, 0x22, 0x33], pc0 := some 0xC000 } = .ok s) ∧
    ({ Config.resetParams with prg := [] } : Config.Params).prg.length = 0 :=
  ⟨by decide, by decide, by decide, by decide, witness_ConstructionMakesTheWholeState.2.1, rfl⟩

theorem witness_LocationWritesStoreOrFault :
    (0x0000 : Word).toNat < 0x8000 ∧ (0x7FFF : Word).toNat < 0x8000 ∧ 0x8000 ≤ (0x8000 : Word).toNat ∧
    0x8000 ≤ (0xFFFF : Word).toNat := by decide

theorem witness_ResolverComputesEachMode :
    ([.accumulator, .immediate, .zeroPage, .zeroPageX, .zeroPageY, .absolute, .absoluteX, .absoluteY,
      .indexedIndirect, .indirectIndexed].map fun m =>
        operandOf m (fetchByte 1 (at0 [0, 0xFF, 0x7F])) (fetchByte 2 (at0 [0, 0xFF, 0x7F]))) =
      [some .acc, some (.imm 0xFF), some (.zp 0xFF), some (.zpx 0xFF), some (.zpy 0xFF), some (.abs 0x7FFF),
       some (.absx 0x7FFF), some (.absy 0x7FFF), some (.indx 0xFF), some (.indy 0xFF)] ∧
    Mode.accumulator ∉ [Mode.implied, .relative, .indirect] ∧ Mode.absoluteY ∉ [Mode.implied, .relative, .indirect] ∧
    Mode.indirectIndexed ∉ [Mode.implied, .relative, .indirect] := by decide

/-- Each storing instruction at the state whose next PC is 0x0203, writing there. -/
theorem witness_StoreIsSeenByTheNextFetch :
    [Instr.sta (.abs 0x0203), .stx (.abs 0x0203), .sty (.abs 0x0203), .sax (.abs 0x0203), .inc (.abs 0x0203),
      .dec (.abs 0x0203)].all (fun i => completes i (at0 []) && Instr.writes i == some (.abs 0x0203) &&
        resolve (.abs 0x0203) (at0 []) == .mem (after i (at0 [])).pc) = true ∧
    ∀ i : Instr, completes i (at0 []) = true → exec i (at0 []) = .next (after i (at0 [])) :=
  ⟨by decide, fun _ => exec_after⟩

/-- The location clauses of `StoreIs` at the ends of their ranges. -/
theorem witness_StoresWriteOneByte :
    resolve (.zp 0x00) (at0 []) = .mem 0x0000 ∧ resolve (.absx 0x7FFD) (at0 []) = .mem 0x7FFF ∧
    resolve (.absx 0x7FFE) (at0 []) = .mem 0x8000 ∧ resolve (.abs 0xFFFF) (at0 []) = .mem 0xFFFF ∧
    resolve (.imm 0x12) (at0 []) = .const 0x12 ∧ (0x7FFF : Word).toNat < 0x8000 ∧ 0x8000 ≤ (0x8000 : Word).toNat := by
  decide

/-- The location clauses of `ModifyIs`, the accumulator's and those of `StoreIs`. -/
theorem witness_ShiftsAndRotatesModifyTheirLocation :
    resolve .acc (at0 []) = .acc ∧ resolve (.zpx 0xFE) (at0 []) = .mem 0x0000 ∧
    resolve (.absx 0x7FFD) (at0 []) = .mem 0x7FFF ∧ resolve (.absx 0x7FFE) (at0 []) = .mem 0x8000 ∧
    resolve (.imm 0xFF) (at0 []) = .const 0xFF := by decide

/-- The location clauses of `ModifyIs` for DEC and INC. -/
theorem witness_DecIncModifyMemory :
    resolve .acc (at0 []) = .acc ∧ resolve (.zp 0xFF) (at0 []) = .mem 0x00FF ∧
    resolve (.abs 0x7FFF) (at0 []) = .mem 0x7FFF ∧ resolve (.abs 0x8000) (at0 []) = .mem 0x8000 ∧
    resolve (.imm 0x00) (at0 []) = .const 0x00 := by decide

theorem witness_PullsReadAboveTheStackPointer : Flag.N ≠ .B ∧ Flag.N ≠ .U ∧ Flag.C ≠ .B ∧ Flag.C ≠ .U := by decide

theorem witness_NopsOnlyAdvancePC :
    ((0x1A, .implied) : Byte × Mode) ∈ inertRows ∧ ((0x80, .immediate) : Byte × Mode) ∈ inertRows ∧
    ((0x04, .zeroPage) : Byte × Mode) ∈ inertRows ∧ ((0xFC, .absoluteX) : Byte × Mode) ∈ inertRows := by decide

theorem witness_RtiRestoresStatusAndPC : Flag.I ≠ .B ∧ Flag.I ≠ .U := by decide

theorem witness_ChangedRegisterHasItsZN :
    [(0xA9, fun t : State => t.a), (0xA2, fun t => t.x), (0xA0, fun t => t.y)].all (fun c : Byte × (State → Byte) =>
      let s := at0 [c.1, 0x80]
      completes (fetchInstr s) s && c.2 (after (fetchInstr s) s) != c.2 s) = true ∧
    ∀ s : State, completes (fetchInstr s) s = true → step s = .next (after (fetchInstr s) s) :=
  ⟨by decide, fun _ => step_after⟩

theorem witness_FlagsChangeOnlyByListedInstructions :
    (Instr.adc (.imm 0x7F)).WellFormed = true ∧
    exec (.adc (.imm 0x7F)) (at0 []) = .next (after (.adc (.imm 0x7F)) (at0 [])) ∧
    Flag.D ∉ flagsWritten (.adc (.imm 0x7F)) ∧ Flag.B ∉ flagsWritten .brk :=
  ⟨by decide, exec_after (by decide), by decide, by decide⟩

theorem witness_RegistersChangeOnlyByListedInstructions :
    (Instr.asl (.zp 0x10)).WellFormed = true ∧
    exec (.asl (.zp 0x10)) (at0 []) = .next (after (.asl (.zp 0x10)) (at0 [])) ∧ Reg.A ∉ regsWritten (.asl (.zp 0x10)) :=
  ⟨by decide, exec_after (by decide), by decide⟩

theorem witness_MemoryChangesOnlyWhereWritten :
    exec (.sta (.abs 0x7FFF)) (at0 []) = .next (after (.sta (.abs 0x7FFF)) (at0 [])) ∧
    memRead 0x7FFF (after (.sta (.abs 0x7FFF)) (at0 [])) ≠ memRead 0x7FFF (at0 []) ∧
    exec .pha (at0 []) = .next (after .pha (at0 [])) ∧
    memRead 0x01FD (after .pha (at0 [])) ≠ memRead 0x01FD (at0 []) :=
  ⟨exec_after (by decide), by decide, exec_after (by decide), by decide⟩

theorem witness_FlagsIDBAreOnlyCopied :
    Flag.D ∈ [Flag.I, .D, .B] ∧ Instr.adc (.imm 0x99) ≠ .php ∧ Instr.adc (.imm 0x99) ≠ .brk ∧
    exec (.adc (.imm 0x99)) (at0 []) = .next (after (.adc (.imm 0x99)) (at0 [])) ∧
    exec (.sta (.abs 0x8000)) (at0 []) = .fault (.romWrite 0x8000) :=
  ⟨by decide, by decide, by decide, exec_after (by decide), exec_stopsWith (by decide)⟩

theorem witness_CycleCountsAreOutputOnly :
    step (at0 [0xA9, 0x10]) = .next (after (.lda (.imm 0x10)) (at0 [0xA9, 0x10])) ∧
    step (at0 [0x02, 0x00]) = .fault (.constantWrite 0x00) :=
  ⟨step_after (by decide), step_stopsWith (by decide)⟩

/-- LDA abs,X across a page: the count of the opcode, 4. -/
theorem witness_CycleCountIgnoresPageCrossing :
    (match stepTimed (at0 [0xBD, 0xFF, 0x12]) with | .next (_, c) => c == 4 | _ => false) = true ∧
    isBranch (fetchInstr (at0 [0xBD, 0xFF, 0x12])) = false ∧ classOf (fetchByte 0 (at0 [0xBD, 0xFF, 0x12])) ≠ .gap := by
  decide

theorem witness_StoppedBlocksRefuseToStep :
    step (at0 [0x02, 0x00]) = .fault (.constantWrite 0x00) ∧
    step (at0 [0xEA]) = .next (after .nop (at0 [0xEA])) :=
  ⟨step_stopsWith (by decide), step_after (by decide)⟩

end Sys2Proof.Tests
end

section
/-! PROOFS (10_state). What the write ports do to registers, flags and the invariant. -/

open Sys2Proof Sys2Proof.Machine Sys2Proof.Claims

namespace Sys2Proof.Machine

/-! ## Registers and flags after a write port -/

theorem getReg_setA (r : Reg) (v : Byte) (s : State) : getReg r (s.setA v) = if r = .A then v else getReg r s := by
  cases r <;> rfl

theorem getReg_setX (r : Reg) (v : Byte) (s : State) : getReg r (s.setX v) = if r = .X then v else getReg r s := by
  cases r <;> rfl

theorem getReg_setY (r : Reg) (v : Byte) (s : State) : getReg r (s.setY v) = if r = .Y then v else getReg r s := by
  cases r <;> rfl

theorem getReg_setSP (r : Reg) (v : Byte) (s : State) : getReg r (s.setSP v) = if r = .SP then v else getReg r s := by
  cases r <;> rfl

theorem getReg_advance (r : Reg) (n : Nat) (s : State) : getReg r (s.advance n) = getReg r s := by
  cases r <;> rfl

@[simp] theorem State.advance_zero (s : State) : s.advance 0 = s := by simp [State.advance, State.setPC]

theorem pcPast_advance (n : Nat) (s : State) : PcPast n s (s.advance n) := by simp [PcPast, BitVec.toNat_add]

theorem getLsbD_seven (v : Byte) : v.getLsbD 7 = decide (128 ≤ v.toNat) := by
  rw [← BitVec.msb_eq_decide v, BitVec.msb_eq_getLsbD_last]

/-- Z and N of a P that ends in `setZN` describe the byte they were set from (R17). -/
theorem znOf_of_setZN {v p : Byte} {t : State} (h : t.p = setZN v p) : ZNOf v t := by
  rw [ZNOf, h, getFlag_setZN, getFlag_setZN, if_pos rfl, if_neg (by decide), if_pos rfl, getLsbD_seven]
  exact ⟨Bool.eq_iff_iff.mpr (by simp [← BitVec.toNat_inj]), rfl⟩

theorem getFlag_setZN_of_notMem {f : Flag} (r p : Byte) (h : f ∉ [Flag.Z, .N]) :
    getFlag f (setZN r p) = getFlag f p := by
  simp only [List.mem_cons, List.not_mem_nil, or_false, not_or] at h
  rw [getFlag_setZN, if_neg h.1, if_neg h.2]

/-- A write port that stores `v` in register `r` and takes Z and N from it loads `r` in the sense of the claims. -/
theorem loadsReg_of_port {n : Nat} {r : Reg} {v : Byte} {s t : State} (hpc : t.pc = (s.advance n).pc)
    (hreg : ∀ q, getReg q t = if q = r then v else getReg q s) (hp : t.p = setZN v s.p) (hmem : MemKept s t) :
    LoadsReg n r v s t := by
  refine ⟨?_, by rw [hreg, if_pos rfl], znOf_of_setZN hp, fun q hq => ?_, fun f hf => ?_, hmem⟩
  · rw [PcPast, hpc]
    exact pcPast_advance n s
  · rw [hreg, if_neg (by simpa using hq)]
  · rw [hp, getFlag_setZN_of_notMem v _ hf]

theorem loadsReg_setA (n : Nat) (v : Byte) (s : State) : LoadsReg n .A v s ((s.advance n).setA v) :=
  loadsReg_of_port rfl (fun q => by rw [getReg_setA, getReg_advance]) rfl fun _ => rfl

theorem loadsReg_setX (n : Nat) (v : Byte) (s : State) : LoadsReg n .X v s ((s.advance n).setX v) :=
  loadsReg_of_port rfl (fun q => by rw [getReg_setX, getReg_advance]) rfl fun _ => rfl

theorem loadsReg_setY (n : Nat) (v : Byte) (s : State) : LoadsReg n .Y v s ((s.advance n).setY v) :=
  loadsReg_of_port rfl (fun q => by rw [getReg_setY, getReg_advance]) rfl fun _ => rfl

/-! ## The status register and an empty store -/

theorem toNat_statusValue (v : Byte) : (statusValue v).toNat = v.toNat ||| 0x20 := by
  simp [statusValue, unusedMask]

/-- Every word reads 0 where neither store has an entry. -/
theorem read16_of_no_entries {s : State} (hram : s.ram = []) (hprg : s.prg = []) (a : Word) : read16 a s = 0 := by
  simp [read16, memRead, hram, hprg, Memory.unlisted, word]

/-! ## The invariant -/

/-- A write that leaves both stores alone keeps the invariant when it leaves U at 1. -/
theorem State.Inv.of_stores_kept {s t : State} (h : s.Inv) (hram : t.ram = s.ram) (hprg : t.prg = s.prg)
    (hlen : t.prgLen = s.prgLen) (hU : getFlag .U s.p = true → getFlag .U t.p = true) : t.Inv := by
  obtain ⟨hu, hwf, hbelow, himage⟩ := h
  exact ⟨hU hu, hram ▸ hwf, hram ▸ hbelow, by rw [hprg, hlen]; exact himage⟩

theorem State.Inv.ramWrite {s : State} (h : s.Inv) {a : Word} (ha : a.toNat < romBase) (v : Byte) :
    (ramWrite a v s).Inv := by
  obtain ⟨hu, hwf, hbelow, himage⟩ := h
  exact ⟨hu, Memory.wf_write _ _ hwf, Memory.below_write _ hbelow ha, himage⟩

end Sys2Proof.Machine

/-! ## The accessors and the reset state -/

namespace Sys2Proof.Proofs

/-- Settles O21: the register write ports are loads with no PC advance. -/
theorem registerWritePortSetsZN : Obligations.RegisterWritePortSetsZN := by
  intro v s
  have hA := loadsReg_setA 0 v s
  have hX := loadsReg_setX 0 v s
  have hY := loadsReg_setY 0 v s
  rw [State.advance_zero] at hA hX hY
  exact ⟨⟨hA, hX, hY⟩, rfl, rfl, rfl⟩

/-- Settles O22, from the getter-after-setter rule `getFlag_setFlag`. -/
theorem statusAccessorsAndWrites : Obligations.StatusAccessorsAndWrites := by
  refine ⟨fun p => rfl, fun f g b p => ?_, fun v s => ⟨toNat_statusValue v, ?_, fun _ => rfl, rfl⟩,
    fun v f b s => ⟨rfl, rfl, toNat_statusValue s.p⟩⟩
  · rw [getFlag_setFlag]
  · intro r _
    cases r <;> rfl

/-- Settles O13: zero bytes need no entry in a store, so RAM and image are the empty lists of `State.reset`. -/
theorem resetIsTheNamedConstruction : Obligations.ResetIsTheNamedConstruction := by
  have hlen : Config.resetParams.prg.length = Config.prgLen0 := List.length_replicate
  have hram : Memory.ofBytes 0 Config.resetParams.ramInit.toList = [] := by
    rw [show Config.resetParams.ramInit.toList = List.replicate Config.ramSize Memory.unlisted from
      Vector.toList_replicate]
    exact Memory.ofBytes_replicate ..
  have hprg : Memory.ofBytes 0 Config.resetParams.prg = [] := Memory.ofBytes_replicate ..
  unfold Obligations.ResetIsTheNamedConstruction construct
  rw [hlen, if_neg (by decide), hram, hprg]
  simp only [read16_of_no_entries]
  rfl

/-- Settles O14: the stores of `State.reset` are empty. -/
theorem resetMeetsTheInvariant : Obligations.ResetMeetsTheInvariant :=
  ⟨getFlag_U_statusValue _, Memory.wf_nil, Memory.below_nil _, Memory.wf_nil, Memory.below_nil _, by decide⟩

end Sys2Proof.Proofs
end

section
/-! PROOFS (10_state). What an instruction can do to the state, said once. A completing
instruction writes SP, PC, flags and RAM, and then A, X or Y at most once, through its port. -/

open Sys2Proof Sys2Proof.Machine Sys2Proof.Claims

namespace Sys2Proof.Machine

/-- `t` comes from `s` by writes of SP (where `rs` allows it), of flags of `fs`, of PC and of RAM. -/
inductive PlainWrites (rs : List Reg) (fs : List Flag) (s : State) : State → Prop where
  | refl : PlainWrites rs fs s s
  | setPC {t : State} (v : Word) : PlainWrites rs fs s t → PlainWrites rs fs s (t.setPC v)
  | setSP {t : State} (hr : [.SP] ⊆ rs) (v : Byte) : PlainWrites rs fs s t → PlainWrites rs fs s (t.setSP v)
  | setFlag {t : State} {f : Flag} (hf : [f] ⊆ fs) (b : Bool) :
      PlainWrites rs fs s t → PlainWrites rs fs s (t.setFlag f b)
  | setP {t : State} (hf : ∀ f, f ∈ fs) (v : Byte) : PlainWrites rs fs s t → PlainWrites rs fs s (t.setP v)
  | ramWrite {t : State} {a : Word} (ha : a.toNat < romBase) (v : Byte) :
      PlainWrites rs fs s t → PlainWrites rs fs s (ramWrite a v t)

/-- `t` comes from `s` by plain writes and then at most one write of a register of `rs` through the port that
sets Z and N (R17). -/
inductive InstrWrites (rs : List Reg) (fs : List Flag) (s : State) : State → Prop where
  | plain {t : State} : PlainWrites rs fs s t → InstrWrites rs fs s t
  | setA {t : State} (hr : [.A] ⊆ rs) (hf : [.Z, .N] ⊆ fs) (v : Byte) :
      PlainWrites rs fs s t → InstrWrites rs fs s (t.setA v)
  | setX {t : State} (hr : [.X] ⊆ rs) (hf : [.Z, .N] ⊆ fs) (v : Byte) :
      PlainWrites rs fs s t → InstrWrites rs fs s (t.setX v)
  | setY {t : State} (hr : [.Y] ⊆ rs) (hf : [.Z, .N] ⊆ fs) (v : Byte) :
      PlainWrites rs fs s t → InstrWrites rs fs s (t.setY v)

theorem ne_of_notMem {α : Type} {a b : α} {l : List α} (ha : [a] ⊆ l) (hb : b ∉ l) : b ≠ a :=
  fun e => hb (ha (by simp [e]))

section
variable {rs : List Reg} {fs : List Flag} {s t : State}

/-! ## The operations as plain writes -/

namespace PlainWrites

theorem advance (n : Nat) (h : PlainWrites rs fs s t) : PlainWrites rs fs s (t.advance n) := h.setPC _

theorem push (hr : [.SP] ⊆ rs) (v : Byte) (h : PlainWrites rs fs s t) : PlainWrites rs fs s (push v t) :=
  (h.ramWrite (stackAddr_lt t.sp) v).setSP hr _

theorem push16 (hr : [.SP] ⊆ rs) (w : Word) (h : PlainWrites rs fs s t) : PlainWrites rs fs s (push16 w t) :=
  (h.push hr _).push hr _

theorem pull (hr : [.SP] ⊆ rs) (h : PlainWrites rs fs s t) : PlainWrites rs fs s (pull t).2 := h.setSP hr _

theorem pull16 (hr : [.SP] ⊆ rs) (h : PlainWrites rs fs s t) : PlainWrites rs fs s (pull16 t).2 :=
  (h.pull hr).pull hr

theorem pullStatus (hr : [.SP] ⊆ rs) (hf : ∀ f, f ∈ fs) (h : PlainWrites rs fs s t) :
    PlainWrites rs fs s (pullStatus t) := (h.pull hr).setP hf _

theorem takeTrap (hr : [.SP] ⊆ rs) (hf : [.I] ⊆ fs) (w : Word) (h : PlainWrites rs fs s t) :
    PlainWrites rs fs s (takeTrap w t) := (((h.push16 hr w).push hr _).setFlag hf true).setPC _

theorem returnFromTrap (hr : [.SP] ⊆ rs) (hf : ∀ f, f ∈ fs) (h : PlainWrites rs fs s t) :
    PlainWrites rs fs s (returnFromTrap t) := ((h.pullStatus hr hf).pull16 hr).setPC _

theorem setZN (hf : [.Z, .N] ⊆ fs) (r : Byte) (h : PlainWrites rs fs s t) :
    PlainWrites rs fs s (t.updP (setZN r)) := by
  simp only [List.cons_subset] at hf
  exact (h.setFlag (by simp [hf]) (r == 0)).setFlag (f := .N) (by simp [hf]) (r.getLsbD 7)

/-- C, then Z and N from a result: the flags of the compares (R141) and of the shifts (R150 to R153). -/
theorem setCZN (hf : [.C, .Z, .N] ⊆ fs) (c : Bool) (r : Byte) (h : PlainWrites rs fs s t) :
    PlainWrites rs fs s (t.updP fun p => Machine.setZN r (Machine.setFlag .C c p)) := by
  simp only [List.cons_subset] at hf
  exact (h.setFlag (f := .C) (by simp [hf]) c).setZN (by simp [hf]) r

theorem setBit (hf : [.Z, .N, .V] ⊆ fs) (a m : Byte) (h : PlainWrites rs fs s t) :
    PlainWrites rs fs s (t.updP (setBit a m)) := by
  simp only [List.cons_subset] at hf
  exact ((h.setFlag (f := .Z) (by simp [hf]) (a &&& m == 0)).setFlag (f := .N) (by simp [hf]) (m.getLsbD 7)).setFlag
    (f := .V) (by simp [hf]) (m.getLsbD 6)

/-! ## What plain writes keep -/

theorem reg (h : PlainWrites rs fs s t) {r : Reg} (hr : r ≠ .SP) : getReg r t = getReg r s := by
  induction h with
  | refl => rfl
  | setSP _ v _ ih => rw [getReg_setSP, if_neg hr, ih]
  | setPC _ _ ih | setFlag _ _ _ ih | setP _ _ _ ih | ramWrite _ _ _ ih => rw [← ih]; cases r <;> rfl

theorem regsKept (h : PlainWrites rs fs s t) : RegsKept rs s t := by
  intro r hr
  induction h with
  | refl => rfl
  | setSP hsp v _ ih => rw [getReg_setSP, if_neg (ne_of_notMem hsp hr), ih]
  | setPC _ _ ih | setFlag _ _ _ ih | setP _ _ _ ih | ramWrite _ _ _ ih => rw [← ih]; cases r <;> rfl

theorem flagsKept (h : PlainWrites rs fs s t) : FlagsKept fs s t := by
  intro g hg
  induction h with
  | refl => rfl
  | setPC _ _ ih | setSP _ _ _ ih | ramWrite _ _ _ ih => exact ih
  | setFlag hf b _ ih => rw [State.setFlag_p, getFlag_setFlag, if_neg (ne_of_notMem hf hg), ih]
  | setP hf => exact absurd (hf g) hg

theorem image (h : PlainWrites rs fs s t) : t.prg = s.prg ∧ t.prgLen = s.prgLen ∧ t.trace = s.trace := by
  induction h with
  | refl => exact ⟨rfl, rfl, rfl⟩
  | setPC _ _ ih | setSP _ _ _ ih | setFlag _ _ _ ih | setP _ _ _ ih | ramWrite _ _ _ ih => exact ih

theorem inv (h : PlainWrites rs fs s t) (hs : s.Inv) : t.Inv := by
  induction h with
  | refl => exact hs
  | setPC _ _ ih | setSP _ _ _ ih => exact ih
  | setFlag _ _ _ ih => exact ih.of_stores_kept rfl rfl rfl getFlag_U_setFlag
  | setP _ _ _ ih => exact ih.of_stores_kept rfl rfl rfl fun _ => getFlag_U_statusValue _
  | ramWrite ha v _ ih => exact ih.ramWrite ha v

end PlainWrites

/-! ## The shapes of a resolved operation -/

theorem resolve_eq_acc {o : Operand} {s : State} (h : resolve o s = .acc) : o = .acc := by
  cases o <;> simp [resolve] at h ⊢

/-- The flag and register writes of ADC and SBC. -/
theorem InstrWrites.setAlu (hr : [.A] ⊆ rs) (hf : [.C, .V, .Z, .N] ⊆ fs) (r : AluOut) (h : PlainWrites rs fs s t) :
    InstrWrites rs fs s (t.setAlu r) := by
  simp only [List.cons_subset] at hf
  exact .setA hr (by simp [hf]) _ ((h.setFlag (by simp [hf]) _).setFlag (by simp [hf]) _)

/-- A write to an operand's location writes A and its flags, or RAM, or faults; `u` is the state it acts on. -/
theorem InstrWrites.locWrite {o : Operand} {u : State} {v : Byte} (h : PlainWrites rs fs s u)
    (hacc : o = .acc → [.A] ⊆ rs ∧ [.Z, .N] ⊆ fs) (ht : locWrite (resolve o s) v u = .next t) :
    InstrWrites rs fs s t := by
  rcases locWrite_cases (resolve o s) v u with ⟨hl, he⟩ | ⟨i, -, he⟩ | ⟨a, -, ha, he⟩ | ⟨a, -, -, he⟩ <;>
    rw [he] at ht <;> cases ht
  · obtain ⟨hr, hf⟩ := hacc (resolve_eq_acc hl)
    exact .setA hr hf v h
  · exact .plain (h.ramWrite ha v)

/-- What a completing instruction leaves, given that its outcome is known. -/
theorem InstrWrites.of_next {u : State} (h : InstrWrites rs fs s u)
    (ht : (.next u : Host.Outcome State Fault Refusal) = .next t) : InstrWrites rs fs s t := by
  cases ht
  exact h

/-! ## What an instruction keeps -/

namespace InstrWrites

theorem regsKept (h : InstrWrites rs fs s t) : RegsKept rs s t := by
  intro r hr
  cases h with
  | plain h => exact h.regsKept r hr
  | setA hrs _ v h => rw [getReg_setA, if_neg (ne_of_notMem hrs hr), h.regsKept r hr]
  | setX hrs _ v h => rw [getReg_setX, if_neg (ne_of_notMem hrs hr), h.regsKept r hr]
  | setY hrs _ v h => rw [getReg_setY, if_neg (ne_of_notMem hrs hr), h.regsKept r hr]

theorem flagsKept (h : InstrWrites rs fs s t) : FlagsKept fs s t := by
  intro f hf
  cases h with
  | plain h => exact h.flagsKept f hf
  | setA _ hfs v h | setX _ hfs v h | setY _ hfs v h =>
    exact (getFlag_setZN_of_notMem v _ fun e => hf (hfs e)).trans (h.flagsKept f hf)

theorem image (h : InstrWrites rs fs s t) : t.prg = s.prg ∧ t.prgLen = s.prgLen ∧ t.trace = s.trace := by
  cases h with
  | plain h | setA _ _ _ h | setX _ _ _ h | setY _ _ _ h => exact h.image

theorem inv (h : InstrWrites rs fs s t) (hs : s.Inv) : t.Inv := by
  cases h with
  | plain h => exact h.inv hs
  | setA _ _ v h | setX _ _ v h | setY _ _ v h =>
    exact (h.inv hs).of_stores_kept rfl rfl rfl (getFlag_U_setZN v _).trans

/-- The register written last is the only one of A, X and Y that can differ, and Z and N describe it (R17). -/
theorem znOf_changed (h : InstrWrites rs fs s t) :
    (t.a ≠ s.a → ZNOf t.a t) ∧ (t.x ≠ s.x → ZNOf t.x t) ∧ (t.y ≠ s.y → ZNOf t.y t) := by
  cases h with
  | plain h =>
    exact ⟨absurd (h.reg (r := .A) (by decide)), absurd (h.reg (r := .X) (by decide)),
      absurd (h.reg (r := .Y) (by decide))⟩
  | setA _ _ v h =>
    exact ⟨fun _ => znOf_of_setZN rfl, absurd (h.reg (r := .X) (by decide)), absurd (h.reg (r := .Y) (by decide))⟩
  | setX _ _ v h =>
    exact ⟨absurd (h.reg (r := .A) (by decide)), fun _ => znOf_of_setZN rfl, absurd (h.reg (r := .Y) (by decide))⟩
  | setY _ _ v h =>
    exact ⟨absurd (h.reg (r := .A) (by decide)), absurd (h.reg (r := .X) (by decide)), fun _ => znOf_of_setZN rfl⟩

end InstrWrites

/-! ## Every instruction -/

theorem forall_mem_of_subset {fs : List Flag} (h : [Flag.C, .Z, .I, .D, .B, .U, .V, .N] ⊆ fs) (f : Flag) : f ∈ fs := by
  apply h
  cases f <;> decide

/-- Every instruction that completes makes writes of these two kinds alone, of the registers and flags R12 to R15 and
R24 to R30 let it write. `hacc` speaks of a store to the accumulator, which of the rows of the opcode table only the
shifts have. -/
theorem exec_instrWrites {i : Instr} (hr : regsWritten i ⊆ rs) (hf : flagsWritten i ⊆ fs)
    (hacc : Instr.writes i = some .acc → [.A] ⊆ rs ∧ [.Z, .N] ⊆ fs) (ht : exec i s = .next t) : InstrWrites rs fs s t := by
  cases i
  case jmp target => cases target <;> exact .of_next (.plain (.setPC _ .refl)) ht
  case jsr w => exact .of_next (.plain (.setPC _ (.push16 hr _ .refl))) ht
  case rts => exact .of_next (.plain (.setPC _ (.pull16 hr .refl))) ht
  case rti => exact .of_next (.plain (.returnFromTrap hr (forall_mem_of_subset hf) .refl)) ht
  case brk => exact .of_next (.plain (.takeTrap hr hf _ .refl)) ht
  case bpl | bmi | bvc | bvs | bcc | bcs | bne | beq => exact .of_next (.plain (.setPC _ .refl)) ht
  case txa | tya => exact .of_next (.setA hr hf _ (.advance 1 .refl)) ht
  case tax | tsx | inx | dex => exact .of_next (.setX hr hf _ (.advance 1 .refl)) ht
  case tay | iny | dey => exact .of_next (.setY hr hf _ (.advance 1 .refl)) ht
  case txs => exact .of_next (.plain (.setSP hr _ (.advance 1 .refl))) ht
  case clc | sec | cli | sei | clv | cld | sed => exact .of_next (.plain (.setFlag hf _ (.advance 1 .refl))) ht
  case pha | php => exact .of_next (.plain (.push hr _ (.advance 1 .refl))) ht
  case pla =>
    obtain ⟨hA, hSP⟩ := List.cons_subset.mp hr
    exact .of_next (.setA (by simpa using hA) hf _ (.pull hSP (.advance 1 .refl))) ht
  case plp => exact .of_next (.plain (.pullStatus hr (forall_mem_of_subset hf) (.advance 1 .refl))) ht
  case nop | nopInert | gap | anc | alr | arr | las | axs | sbcUndoc =>
    exact .of_next (.plain (.advance _ .refl)) ht
  case lda | ora | and | eor => exact .of_next (.setA hr hf _ (.advance _ .refl)) ht
  case ldx => exact .of_next (.setX hr hf _ (.advance _ .refl)) ht
  case ldy => exact .of_next (.setY hr hf _ (.advance _ .refl)) ht
  case adc | sbc => exact .of_next (.setAlu hr hf _ (.advance _ .refl)) ht
  case cmp | cpx | cpy => exact .of_next (.plain (.setCZN hf _ _ (.advance _ .refl))) ht
  case bit => exact .of_next (.plain (.setBit hf _ _ (.advance _ .refl))) ht
  case sta | stx | sty | sax => exact .locWrite (.advance _ .refl) (fun e => hacc (congrArg some e)) ht
  case asl | rol | lsr | ror =>
    exact .locWrite (.setCZN hf _ _ (.advance _ .refl)) (fun e => hacc (congrArg some e)) ht
  case dec | inc => exact .locWrite (.setZN hf _ (.advance _ .refl)) (fun e => hacc (congrArg some e)) ht

/-- The same without the lists: whatever the instruction, it makes writes of these two kinds alone. -/
theorem exec_instrWrites_any {i : Instr} (ht : exec i s = .next t) :
    InstrWrites [.A, .X, .Y, .SP] [.C, .Z, .I, .D, .B, .U, .V, .N] s t :=
  exec_instrWrites (fun r _ => by cases r <;> decide) (fun f _ => by cases f <;> decide)
    (fun _ => ⟨by decide, by decide⟩) ht

/-- Of the rows of the opcode table only the shifts and rotates store to the accumulator, and they list A, Z and N. -/
theorem written_of_writes_acc {i : Instr} (hwf : i.WellFormed = true) (h : Instr.writes i = some .acc) :
    [.A] ⊆ regsWritten i ∧ [.Z, .N] ⊆ flagsWritten i := by
  cases i <;> simp only [Instr.writes, reduceCtorEq, Option.some.injEq] at h <;> subst h
  case asl | rol | lsr | ror => exact ⟨by decide, by decide⟩
  all_goals exact absurd hwf (by decide)

/-- Every row of the opcode table that completes writes registers and flags of its lists alone. -/
theorem exec_instrWrites_of_wellFormed {i : Instr} (hwf : i.WellFormed = true) (ht : exec i s = .next t) :
    InstrWrites (regsWritten i) (flagsWritten i) s t :=
  exec_instrWrites (List.Subset.refl _) (List.Subset.refl _) (written_of_writes_acc hwf) ht

end

/-! ## The host's calls and construction -/

theorem State.Inv.applyHost {s : State} (h : s.Inv) (c : HostCall) : (applyHost c s).Inv := by
  cases c with
  | setA v | setX v | setY v => exact h.of_stores_kept rfl rfl rfl (getFlag_U_setZN v _).trans
  | setSP _ | setPC _ | setTrace _ => exact h
  | setStatus _ => exact h.of_stores_kept rfl rfl rfl fun _ => getFlag_U_statusValue _
  | setFlag _ _ => exact h.of_stores_kept rfl rfl rfl getFlag_U_setFlag

theorem inv_of_construct {q : Config.Params} {s : State} (h : construct q = .ok s) : s.Inv := by
  unfold construct at h
  split at h
  · cases h
  · rename_i hne
    cases h
    have hbelow : Memory.below (Memory.ofBytes 0 q.ramInit.toList) romBase = true := by
      have := Memory.below_ofBytes q.ramInit.toList
      rwa [Vector.length_toList] at this
    exact ⟨getFlag_U_statusValue _, Memory.wf_ofBytes _ _, hbelow, Memory.wf_ofBytes _ _, Memory.below_ofBytes _,
      Nat.pos_of_ne_zero hne⟩

end Sys2Proof.Machine

namespace Sys2Proof.Proofs

/-- Settles O15: a step makes port writes alone, and each keeps the invariant. -/
theorem stepKeepsTheInvariant : Obligations.StepKeepsTheInvariant :=
  fun _ _ hs ht => (exec_instrWrites_any ht).inv hs

/-- Settles O16, by induction on how the state is reached. -/
theorem reachableStatesMeetTheInvariant : Obligations.ReachableStatesMeetTheInvariant := by
  intro s h
  induction h with
  | construct hq => exact inv_of_construct hq
  | step _ hstep ih => exact stepKeepsTheInvariant _ _ ih hstep
  | host c _ ih => exact ih.applyHost c

/-- Settles O17: no write an instruction makes reaches the image or the trace enable. -/
theorem instructionsKeepImageAndTrace : Obligations.InstructionsKeepImageAndTrace :=
  fun _ _ _ ht => (exec_instrWrites_any ht).image

/-- Settles O53: the write of A, X or Y comes last, through the port that sets Z and N. -/
theorem changedRegisterHasItsZN : Obligations.ChangedRegisterHasItsZN :=
  fun _ _ ht => (exec_instrWrites_any ht).znOf_changed

/-- Settles O54: the flags a row of the opcode table writes are in its list. -/
theorem flagsChangeOnlyByListedInstructions : Obligations.FlagsChangeOnlyByListedInstructions :=
  fun _ _ _ f hwf ht hf => (exec_instrWrites_of_wellFormed hwf ht).flagsKept f hf

/-- Settles O55: the registers a row of the opcode table writes are in its list. -/
theorem registersChangeOnlyByListedInstructions : Obligations.RegistersChangeOnlyByListedInstructions :=
  fun _ _ _ r hwf ht hr => (exec_instrWrites_of_wellFormed hwf ht).regsKept r hr

end Sys2Proof.Proofs
end

section
/-! PROOFS (10_state). Repeated pushes (R46) and signed overflow (R139, R140). -/

open Sys2Proof Sys2Proof.Machine Sys2Proof.Claims

namespace Sys2Proof.Machine

/-! ## Repeated pushes -/

theorem iterate_push_sp (v : Byte) (s : State) (k : Nat) : ((push v)^[k] s).sp = s.sp - BitVec.ofNat 8 k := by
  induction k with
  | zero => simp
  | succ k ih =>
    rw [Function.iterate_succ_apply', push_sp, ih, BitVec.ofNat_add, sub_add_eq_sub_sub]
    rfl

/-- A read after `k` pushes of one byte: that byte at the `k` stack addresses from SP down, any other as before. -/
theorem memRead_iterate_push (v : Byte) (s : State) (b : Word) (k : Nat) :
    memRead b ((push v)^[k] s) =
      if ∃ j < k, b = stackAddr (s.sp - BitVec.ofNat 8 j) then v else memRead b s := by
  induction k with
  | zero => simp
  | succ k ih =>
    rw [Function.iterate_succ_apply', memRead_push, iterate_push_sp, ih]
    by_cases hk : b = stackAddr (s.sp - BitVec.ofNat 8 k)
    · rw [if_pos hk, if_pos ⟨k, Nat.lt_succ_self k, hk⟩]
    · rw [if_neg hk]
      simp only [Nat.lt_succ_iff_lt_or_eq, or_and_right, exists_or, exists_eq_left, hk, or_false]

/-- The 256 stack addresses from any SP down are the page 0x0100 to 0x01FF. -/
theorem exists_stackAddr_iff (p : Byte) (b : Word) :
    (∃ j < 256, b = stackAddr (p - BitVec.ofNat 8 j)) ↔ 0x0100 ≤ b.toNat ∧ b.toNat < 0x0200 := by
  constructor
  · rintro ⟨j, -, rfl⟩
    have := (p - BitVec.ofNat 8 j).isLt
    rw [toNat_stackAddr]
    omega
  · rintro ⟨hlo, hhi⟩
    let q := BitVec.ofNat 8 (b.toNat - 0x0100)
    have hq : p - BitVec.ofNat 8 (p - q).toNat = q := by
      rw [BitVec.ofNat_toNat, BitVec.setWidth_eq, sub_sub_cancel]
    refine ⟨(p - q).toNat, (p - q).isLt, ?_⟩
    rw [hq, ← BitVec.toNat_inj, toNat_stackAddr, BitVec.toNat_ofNat]
    omega

/-! ## Signed overflow -/

/-- Bit 7 of the exclusive or is clear exactly when the two bytes have the same sign. -/
theorem xor_and_0x80_eq_zero (x y : Byte) :
    ((x ^^^ y) &&& 0x80 == 0) = decide (128 ≤ x.toNat ↔ 128 ≤ y.toNat) := by
  rw [show (0x80 : Byte) = BitVec.twoPow 8 7 from rfl, BitVec.and_twoPow, BitVec.getLsbD_xor, getLsbD_seven,
    getLsbD_seven]
  by_cases hx : 128 ≤ x.toNat <;> by_cases hy : 128 ≤ y.toNat <;> simp [hx, hy]

theorem toInt_cases (x : Byte) :
    (x.toNat < 128 ∧ x.toInt = x.toNat) ∨ (128 ≤ x.toNat ∧ x.toInt = (x.toNat : Int) - 256) := by
  rw [BitVec.toInt_eq_toNat_cond]
  split
  · exact .inl ⟨by omega, rfl⟩
  · exact .inr ⟨by omega, rfl⟩

/-- V of the addition core is signed overflow of the sum, carry included. -/
theorem aluAdd_v (a m : Byte) (c : Bool) :
    (aluAdd a m c).v = decide (a.toInt + m.toInt + c.toNat < -128 ∨ 127 < a.toInt + m.toInt + c.toNat) := by
  have hc := Bool.toNat_le c
  have ha := toInt_cases a
  have hm := toInt_cases m
  have hr : (aluAdd a m c).r.toNat = (a.toNat + m.toNat + c.toNat) % 256 := BitVec.toNat_ofNat ..
  have hv : (aluAdd a m c).v = decide ((128 ≤ a.toNat ↔ 128 ≤ m.toNat) ∧
      ¬(128 ≤ m.toNat ↔ 128 ≤ (aluAdd a m c).r.toNat)) := by
    simp only [Bool.decide_and, decide_not, ← xor_and_0x80_eq_zero]
    rfl
  rw [hv, hr, decide_eq_decide]
  omega

/-- V of the subtraction core is signed overflow of the difference, borrow included. -/
theorem aluSub_v (a m : Byte) (c : Bool) :
    (aluSub a m c).v =
      decide (a.toInt - m.toInt - (1 - c.toNat) < -128 ∨ 127 < a.toInt - m.toInt - (1 - c.toNat)) := by
  have hc := Bool.toNat_le c
  have ha := toInt_cases a
  have hm := toInt_cases m
  have hr : ((aluSub a m c).r.toNat : Int) = ((a.toNat : Int) - m.toNat - (1 - c.toNat)) % 256 := by
    rw [show (aluSub a m c).r = BitVec.ofInt 8 ((a.toNat : Int) - m.toNat - (1 - c.toNat)) from rfl,
      BitVec.toNat_ofInt]
    omega
  have hv : (aluSub a m c).v = decide (¬(128 ≤ a.toNat ↔ 128 ≤ m.toNat) ∧
      ¬(128 ≤ a.toNat ↔ 128 ≤ (aluSub a m c).r.toNat)) := by
    simp only [Bool.decide_and, decide_not, ← xor_and_0x80_eq_zero]
    rfl
  rw [hv, decide_eq_decide]
  omega

theorem getFlag_V_setAlu (r : AluOut) (s : State) : getFlag .V (s.setAlu r).p = r.v := by
  simp [State.setAlu, getFlag_setZN, getFlag_setFlag]

end Sys2Proof.Machine

namespace Sys2Proof.Proofs

/-- Settles O23, by induction on the number of pushes. -/
theorem stackWrapsAfter256Pushes : Obligations.StackWrapsAfter256Pushes := by
  refine ⟨toNat_stackAddr, fun v s => ⟨memRead_push v s, ?_, memWrite_stackAddr _ v s⟩, iterate_push_sp,
    fun v s => ⟨?_, fun b => ?_⟩⟩
  · rw [push_sp, BitVec.toNat_sub, Nat.add_comm]
    rfl
  · rw [iterate_push_sp]
    exact sub_zero s.sp
  · rw [memRead_iterate_push]
    simp only [exists_stackAddr_iff]

/-- Settles O30, from the two ALU cores. -/
theorem overflowIsSignedOverflow : Obligations.OverflowIsSignedOverflow :=
  fun _ _ => ⟨⟨_, rfl, (getFlag_V_setAlu _ _).trans (aluAdd_v _ _ _)⟩,
    ⟨_, rfl, (getFlag_V_setAlu _ _).trans (aluSub_v _ _ _)⟩⟩

end Sys2Proof.Proofs
end

section
/-! PROOFS (10_state). Two runs from states that agree but for one flag (R26 to R28). Every
operation gives states that agree but for that flag again; an instruction reads C, Z, V and N of the flags alone. -/

open Sys2Proof Sys2Proof.Machine Sys2Proof.Claims

namespace Sys2Proof.Machine

/-! ## Status bytes that agree but for one flag -/

/-- Two status bytes agree but for the flag `f`: `FlagsKept [f]` on bytes. -/
def StatusAgree (f : Flag) (p q : Byte) : Prop := ∀ g, g ∉ [f] → getFlag g q = getFlag g p

namespace StatusAgree
variable {f : Flag} {p q : Byte}

theorem setFlag (h : StatusAgree f p q) (g : Flag) (b : Bool) :
    StatusAgree f (Machine.setFlag g b p) (Machine.setFlag g b q) := by
  intro k hk
  rw [getFlag_setFlag, getFlag_setFlag, h k hk]

theorem setZN (h : StatusAgree f p q) (r : Byte) : StatusAgree f (Machine.setZN r p) (Machine.setZN r q) :=
  (h.setFlag .Z _).setFlag .N _

theorem setCmp (h : StatusAgree f p q) (r m : Byte) : StatusAgree f (Machine.setCmp r m p) (Machine.setCmp r m q) :=
  (h.setFlag .C _).setZN _

theorem setShift (h : StatusAgree f p q) (o : ShiftOut) :
    StatusAgree f (Machine.setShift o p) (Machine.setShift o q) := (h.setFlag .C _).setZN _

theorem setBit (h : StatusAgree f p q) (a m : Byte) : StatusAgree f (Machine.setBit a m p) (Machine.setBit a m q) :=
  ((h.setFlag .Z _).setFlag .N _).setFlag .V _

end StatusAgree

end Sys2Proof.Machine

namespace Sys2Proof.Claims.AgreeBut
variable {f : Flag} {s t : State}

/-! ## What agrees -/

theorem reg (h : AgreeBut f s t) (r : Reg) : getReg r t = getReg r s := h.1 r (by simp)

theorem a (h : AgreeBut f s t) : t.a = s.a := h.reg .A
theorem x (h : AgreeBut f s t) : t.x = s.x := h.reg .X
theorem y (h : AgreeBut f s t) : t.y = s.y := h.reg .Y
theorem sp (h : AgreeBut f s t) : t.sp = s.sp := h.reg .SP

theorem status (h : AgreeBut f s t) : StatusAgree f s.p t.p := h.2.1

theorem flag (h : AgreeBut f s t) {g : Flag} (hg : g ≠ f) : getFlag g t.p = getFlag g s.p := h.status g (by simpa using hg)

theorem mem (h : AgreeBut f s t) (b : Word) : memRead b t = memRead b s := h.2.2.1 b

theorem pc (h : AgreeBut f s t) : t.pc = s.pc := h.2.2.2

theorem of_setFlag (f : Flag) (b : Bool) (s : State) : AgreeBut f s (s.setFlag f b) := by
  refine ⟨fun r _ => by cases r <;> rfl, fun g hg => ?_, fun _ => rfl, rfl⟩
  rw [State.setFlag_p, getFlag_setFlag, if_neg (by simpa using hg)]

/-! ## The operations keep the agreement -/

theorem setA (h : AgreeBut f s t) {v w : Byte} (hv : w = v) : AgreeBut f (s.setA v) (t.setA w) := by
  subst hv
  exact ⟨fun r _ => by rw [getReg_setA, getReg_setA, h.reg], h.status.setZN w, h.mem, h.pc⟩

theorem setX (h : AgreeBut f s t) {v w : Byte} (hv : w = v) : AgreeBut f (s.setX v) (t.setX w) := by
  subst hv
  exact ⟨fun r _ => by rw [getReg_setX, getReg_setX, h.reg], h.status.setZN w, h.mem, h.pc⟩

theorem setY (h : AgreeBut f s t) {v w : Byte} (hv : w = v) : AgreeBut f (s.setY v) (t.setY w) := by
  subst hv
  exact ⟨fun r _ => by rw [getReg_setY, getReg_setY, h.reg], h.status.setZN w, h.mem, h.pc⟩

theorem setSP (h : AgreeBut f s t) {v w : Byte} (hv : w = v) : AgreeBut f (s.setSP v) (t.setSP w) := by
  subst hv
  exact ⟨fun r _ => by rw [getReg_setSP, getReg_setSP, h.reg], h.status, h.mem, h.pc⟩

theorem setPC (h : AgreeBut f s t) {v w : Word} (hv : w = v) : AgreeBut f (s.setPC v) (t.setPC w) :=
  ⟨h.1, h.status, h.mem, hv⟩

theorem setP (h : AgreeBut f s t) {v w : Byte} (hv : w = v) : AgreeBut f (s.setP v) (t.setP w) :=
  ⟨h.1, fun _ _ => by rw [State.setP_p, State.setP_p, hv], h.mem, h.pc⟩

theorem updP (h : AgreeBut f s t) {F G : Byte → Byte} (hF : StatusAgree f (F s.p) (G t.p)) :
    AgreeBut f (s.updP F) (t.updP G) := ⟨h.1, hF, h.mem, h.pc⟩

theorem setFlag (h : AgreeBut f s t) (g : Flag) {b c : Bool} (hb : c = b) :
    AgreeBut f (s.setFlag g b) (t.setFlag g c) := by
  subst hb
  exact h.updP (h.status.setFlag g c)

theorem advance (h : AgreeBut f s t) (n : Nat) : AgreeBut f (s.advance n) (t.advance n) := h.setPC (by rw [h.pc])

theorem ramWrite (h : AgreeBut f s t) (a : Word) (v : Byte) : AgreeBut f (ramWrite a v s) (ramWrite a v t) :=
  ⟨h.1, h.status, fun b => by rw [memRead_ramWrite, memRead_ramWrite, h.mem], h.pc⟩

theorem push (h : AgreeBut f s t) {v w : Byte} (hv : w = v) : AgreeBut f (push v s) (push w t) := by
  subst hv
  unfold Machine.push
  rw [h.sp]
  exact (h.ramWrite _ _).setSP rfl

theorem push16 (h : AgreeBut f s t) {v w : Word} (hv : w = v) : AgreeBut f (push16 v s) (push16 w t) := by
  subst hv
  exact (h.push rfl).push rfl

theorem pull (h : AgreeBut f s t) : AgreeBut f (pull s).2 (pull t).2 := h.setSP (by rw [h.sp])

theorem pull_fst (h : AgreeBut f s t) : (Machine.pull t).1 = (Machine.pull s).1 := by
  rw [Machine.pull_fst, Machine.pull_fst, h.sp, h.mem]

theorem pull16 (h : AgreeBut f s t) : AgreeBut f (pull16 s).2 (pull16 t).2 := h.pull.pull

theorem pull16_fst (h : AgreeBut f s t) : (Machine.pull16 t).1 = (Machine.pull16 s).1 := by
  rw [Machine.pull16_fst, Machine.pull16_fst, h.sp, h.mem, h.mem]

theorem pullStatus (h : AgreeBut f s t) : AgreeBut f (pullStatus s) (pullStatus t) := h.pull.setP (by rw [h.pull_fst])

theorem returnFromTrap (h : AgreeBut f s t) : AgreeBut f (returnFromTrap s) (returnFromTrap t) :=
  h.pullStatus.pull16.setPC h.pullStatus.pull16_fst

theorem setAlu (h : AgreeBut f s t) {r q : AluOut} (hr : q = r) : AgreeBut f (s.setAlu r) (t.setAlu q) := by
  subst hr
  exact ((h.setFlag .C rfl).setFlag .V rfl).setA rfl

/-! ## Locations -/

theorem readZP16 (h : AgreeBut f s t) (p : Byte) : readZP16 p t = readZP16 p s := by
  rw [Machine.readZP16, Machine.readZP16, h.mem, h.mem]

/-- No flag takes part in an effective address. -/
theorem resolve (h : AgreeBut f s t) (o : Operand) : resolve o t = resolve o s := by
  cases o <;> simp only [Machine.resolve, h.x, h.y, h.readZP16]

theorem operandValue (h : AgreeBut f s t) (o : Operand) : operandValue o t = operandValue o s := by
  rw [Machine.operandValue, Machine.operandValue, h.resolve]
  cases Machine.resolve o s with
  | acc => exact h.a
  | const i => rfl
  | mem b => exact h.mem b

end Sys2Proof.Claims.AgreeBut

namespace Sys2Proof.Machine

/-! ## Outcomes that agree -/

/-- The same fault, or next states that agree but for the flag `f`. -/
inductive OutcomesAgree (f : Flag) : Host.Outcome State Fault Refusal → Host.Outcome State Fault Refusal → Prop where
  | next {s t : State} : AgreeBut f s t → OutcomesAgree f (.next s) (.next t)
  | fault (r : Fault) : OutcomesAgree f (.fault r) (.fault r)

section
variable {f : Flag} {s t : State}

theorem locWrite_agree (h : AgreeBut f s t) (l : Loc) {v w : Byte} (hv : w = v) :
    OutcomesAgree f (locWrite l v s) (locWrite l w t) := by
  subst hv
  cases l with
  | acc => exact .next (h.setA rfl)
  | const i => exact .fault _
  | mem a =>
    simp only [locWrite]
    by_cases ha : a.toNat < romBase
    · rw [memWrite_of_lt w s ha, memWrite_of_lt w t ha]
      exact .next (h.ramWrite a w)
    · rw [memWrite_of_ge w s (by omega), memWrite_of_ge w t (by omega)]
      exact .fault _

theorem loadOp_agree (h : AgreeBut f s t) (o : Operand) {F : Byte → State → State}
    (hF : ∀ m {u v : State}, AgreeBut f u v → AgreeBut f (F m u) (F m v)) :
    OutcomesAgree f (loadOp o F s) (loadOp o F t) := by
  rw [loadOp_eq, loadOp_eq, h.operandValue]
  exact .next (hF _ (h.advance _))

theorem storeOp_agree (h : AgreeBut f s t) (o : Operand) {v w : Byte} (hv : w = v) :
    OutcomesAgree f (storeOp o v s) (storeOp o w t) := by
  rw [storeOp, storeOp, h.resolve]
  exact locWrite_agree (h.advance _) _ hv

theorem modifyOp_agree (h : AgreeBut f s t) (o : Operand) (r : Byte → Byte) {F : Byte → Byte → Byte}
    (hF : ∀ m {p q : Byte}, StatusAgree f p q → StatusAgree f (F m p) (F m q)) :
    OutcomesAgree f (modifyOp o r F s) (modifyOp o r F t) := by
  simp only [modifyOp, h.resolve, h.operandValue]
  exact locWrite_agree ((h.advance _).updP (hF _ (h.advance _).status)) _ rfl

theorem shiftOp_agree (h : AgreeBut f s t) (o : Operand) (sh : Byte → ShiftOut) :
    OutcomesAgree f (shiftOp o sh s) (shiftOp o sh t) := modifyOp_agree h o _ fun m _ _ hp => hp.setShift (sh m)

theorem branchOn_agree (h : AgreeBut f s t) {g : Flag} (hg : g ≠ f) (b : Bool) (r : Byte) :
    OutcomesAgree f (branchOn g b r s) (branchOn g b r t) :=
  .next (h.setPC (by rw [branchTarget, branchTarget, h.flag hg, h.pc]))

/-- The flags an instruction reads, in ADC, SBC, the rotates and the branches, are none of I, D and B. -/
theorem flags_read_ne (hf : f ∈ [Flag.I, .D, .B]) : Flag.C ≠ f ∧ Flag.Z ≠ f ∧ Flag.V ≠ f ∧ Flag.N ≠ f := by
  revert f
  decide

/-- Every instruction but PHP and BRK gives outcomes that agree but for I, D or B when the states do. -/
theorem exec_agree (h : AgreeBut f s t) (hf : f ∈ [Flag.I, .D, .B]) {i : Instr} (hphp : i ≠ .php) (hbrk : i ≠ .brk) :
    OutcomesAgree f (exec i s) (exec i t) := by
  obtain ⟨hC, hZ, hV, hN⟩ := flags_read_ne hf
  have h1 := h.advance 1
  cases i
  case php => exact absurd rfl hphp
  case brk => exact absurd rfl hbrk
  case jmp target =>
    cases target with
    | abs w => exact .next (h.setPC rfl)
    | ind w => exact .next (h.setPC (by rw [h.mem, h.mem]))
  case jsr w => exact .next ((h.push16 (by rw [h.pc])).setPC rfl)
  case rts => exact .next (h.pull16.setPC (by rw [h.pull16_fst]))
  case rti => exact .next h.returnFromTrap
  case bpl r | bmi r => exact branchOn_agree h hN _ r
  case bvc r | bvs r => exact branchOn_agree h hV _ r
  case bcc r | bcs r => exact branchOn_agree h hC _ r
  case bne r | beq r => exact branchOn_agree h hZ _ r
  case tax => exact .next (h1.setX h.a)
  case txa => exact .next (h1.setA h.x)
  case tay => exact .next (h1.setY h.a)
  case tya => exact .next (h1.setA h.y)
  case tsx => exact .next (h1.setX h.sp)
  case txs => exact .next (h1.setSP h.x)
  case clc | sec | cli | sei | clv | cld | sed => exact .next (h1.setFlag _ rfl)
  case pha => exact .next (h1.push h.a)
  case pla => exact .next (h1.pull.setA h1.pull_fst)
  case plp => exact .next h1.pullStatus
  case inx | dex => exact .next (h1.setX (by rw [h.x]))
  case iny | dey => exact .next (h1.setY (by rw [h.y]))
  case nop | nopInert | gap | anc | alr | arr | las | axs | sbcUndoc => exact .next (h.advance _)
  case lda o => exact loadOp_agree h o fun _ _ _ hu => hu.setA rfl
  case ldx o => exact loadOp_agree h o fun _ _ _ hu => hu.setX rfl
  case ldy o => exact loadOp_agree h o fun _ _ _ hu => hu.setY rfl
  case ora o | and o | eor o =>
    simp only [exec, execOra, execAnd, execEor]
    refine loadOp_agree h o fun m u v hu => ?_
    exact hu.setA (by rw [hu.a])
  case adc o | sbc o =>
    simp only [exec, execAdc, execSbc]
    refine loadOp_agree h o fun m u v hu => ?_
    exact hu.setAlu (by rw [hu.a, hu.flag hC])
  case cmp o =>
    simp only [exec, execCmp]
    refine loadOp_agree h o fun m u v hu => ?_
    rw [hu.a]
    exact hu.updP (hu.status.setCmp _ m)
  case cpx o =>
    simp only [exec, execCpx]
    refine loadOp_agree h o fun m u v hu => ?_
    rw [hu.x]
    exact hu.updP (hu.status.setCmp _ m)
  case cpy o =>
    simp only [exec, execCpy]
    refine loadOp_agree h o fun m u v hu => ?_
    rw [hu.y]
    exact hu.updP (hu.status.setCmp _ m)
  case bit o =>
    simp only [exec, execBit]
    refine loadOp_agree h o fun m u v hu => ?_
    rw [hu.a]
    exact hu.updP (hu.status.setBit _ m)
  case sta o => exact storeOp_agree h o h.a
  case stx o => exact storeOp_agree h o h.x
  case sty o => exact storeOp_agree h o h.y
  case sax o => exact storeOp_agree h o (by rw [h.a, h.x])
  case asl o | lsr o => exact shiftOp_agree h o _
  case rol o | ror o =>
    simp only [exec, execRol, execRor, h.flag hC]
    exact shiftOp_agree h o _
  case dec o | inc o =>
    simp only [exec, execDec, execInc]
    refine modifyOp_agree h o _ fun m p q hp => ?_
    exact hp.setZN _

end

end Sys2Proof.Machine

namespace Sys2Proof.Proofs

/-- Settles O57: `exec_agree` for the two states that differ in the flag set. -/
theorem flagsIDBAreOnlyCopied : Obligations.FlagsIDBAreOnlyCopied := by
  intro i s f b hf hphp hbrk
  have h := exec_agree (AgreeBut.of_setFlag f b s) hf hphp hbrk
  unfold Gives
  generalize exec i s = before at h ⊢
  generalize exec i (s.setFlag f b) = after at h ⊢
  cases h with
  | next hst => exact ⟨_, rfl, hst⟩
  | fault r => rfl

end Sys2Proof.Proofs
end

section
/-! PROOFS (20_memory). The router: writes to locations (R40, R42) and the mirrored image (R39). -/

open Sys2Proof Sys2Proof.Machine Sys2Proof.Claims

namespace Sys2Proof.Machine

/-! ## A store to RAM and the PRG-ROM window -/

/-- A store below the PRG-ROM window is seen at its own address and at no other (R40). -/
theorem memStored_ramWrite {a : Word} (ha : a.toNat < romBase) (v : Byte) (s : State) :
    MemStored a v s (ramWrite a v s) := by
  intro b
  by_cases hb : b = a
  · subst hb
    rw [memRead_ramWrite, if_pos ⟨rfl, ha⟩, if_pos rfl]
  · rw [memRead_ramWrite_of_ne v s hb, if_neg hb]

/-- The window reads the image at the offset taken modulo its length (R39). -/
theorem memRead_window {k : Nat} (hk : k < 0x8000) (s : State) :
    memRead (BitVec.ofNat 16 (0x8000 + k)) s = Memory.read s.prg (k % s.prgLen) := by
  have ha : (BitVec.ofNat 16 (0x8000 + k)).toNat = romBase + k := by
    rw [BitVec.toNat_ofNat, Nat.mod_eq_of_lt (by omega)]
    rfl
  rw [memRead, prgOffset, ha, if_pos (Nat.le_add_right _ _), Nat.add_sub_cancel_left]

theorem construct_of_length_zero {q : Config.Params} (h : q.prg.length = 0) : construct q = .error .emptyImage :=
  if_pos h

/-- The image a construction holds is the byte list it was given (R191). -/
theorem image_of_construct {q : Config.Params} {s : State} (h : construct q = .ok s) :
    s.prg = Memory.ofBytes 0 q.prg ∧ s.prgLen = q.prg.length := by
  unfold construct at h
  split at h
  · cases h
  · cases h
    exact ⟨rfl, rfl⟩

end Sys2Proof.Machine

namespace Sys2Proof.Proofs

/-- Settles O20: each kind of location by its rule. -/
theorem locationWritesStoreOrFault : Obligations.LocationWritesStoreOrFault := by
  intro v s
  refine ⟨fun a ha => ?_, fun a ha => ?_, fun _ => ⟨rfl, rfl⟩, ?_⟩
  · have hw : memWrite a v s = .next (ramWrite a v s) := memWrite_of_lt v s ha
    exact ⟨_, hw, hw, memStored_ramWrite ha v s, fun r _ => by cases r <;> rfl, fun _ _ => rfl, rfl⟩
  · have hw : memWrite a v s = .fault (.romWrite a) := memWrite_of_ge v s ha
    exact ⟨hw, hw⟩
  · have hload := loadsReg_setA 0 v s
    rw [State.advance_zero] at hload
    obtain ⟨-, hA, hZN, hregs, hflags, hmem⟩ := hload
    exact ⟨_, rfl, hA, hZN, hregs, hflags, hmem, rfl⟩

/-- Settles O19, from the offset the window reads the image at. -/
theorem prgRomMirrorsTheImage : Obligations.PrgRomMirrorsTheImage := by
  refine ⟨fun s k _ hk => ?_, fun q s k hq hk => ?_, fun q hq => construct_of_length_zero hq⟩
  · rw [memRead_window hk, memRead_window (lt_of_le_of_lt (Nat.mod_le _ _) hk), Nat.mod_mod]
  · obtain ⟨hprg, hlen⟩ := image_of_construct hq
    rw [memRead_window hk, hprg, hlen]
    simpa [Memory.unlisted] using Memory.read_ofBytes 0 (k % q.prg.length) q.prg

end Sys2Proof.Proofs
end

section
/-! PROOFS (20_memory). An instruction placed at PC (notes/assumptions/7.md) is the one the next fetch decodes. -/

open Sys2Proof Sys2Proof.Machine Sys2Proof.Claims

namespace Sys2Proof

/-! ## Operand bytes an instruction does not have -/

/-- Operand bytes that the mode does not have play no part in an operand (R61). -/
theorem Operand.refill_congr {o : Operand} {b1 b2 c1 c2 : Byte}
    (h : [b1, b2].take (o.mode.len - 1) = [c1, c2].take (o.mode.len - 1)) : o.refill b1 b2 = o.refill c1 c2 := by
  cases o <;> simp_all [Operand.refill, operandOf, Operand.mode, Mode.len]

/-- Operand bytes that the instruction does not have play no part in it (R62). -/
theorem Instr.refill_congr {i : Instr} {b1 b2 c1 c2 : Byte}
    (h : [b1, b2].take (i.length - 1) = [c1, c2].take (i.length - 1)) : i.refill b1 b2 = i.refill c1 c2 := by
  cases i
  case jmp target => cases target <;> simp_all [Instr.refill, Instr.length, Instr.mode, Mode.len]
  case jsr | bpl | bmi | bvc | bvs | bcc | bcs | bne | beq =>
    simp_all [Instr.refill, Instr.length, Instr.mode, Mode.len]
  case nopInert op arg =>
    cases arg with
    | none => rfl
    | some o => exact congrArg (fun o => Instr.nopInert op (some o)) (Operand.refill_congr h)
  case rts | rti | brk | tax | txa | tay | tya | tsx | txs | clc | sec | cli | sei | clv | cld | sed | pha | php | pla
    | plp | inx | iny | dex | dey | nop | gap => rfl
  all_goals simp only [Instr.refill, Operand.refill_congr h]

/-- Two decodings that differ only in bytes the opcode does not take are one. -/
theorem decodeInstr_congr {op b1 b2 c1 c2 : Byte}
    (h : [b1, b2].take (opcodeLength op - 1) = [c1, c2].take (opcodeLength op - 1)) :
    decodeInstr op b1 b2 = decodeInstr op c1 c2 := by
  rw [decodeInstr_eq_refill op b1 b2, decodeInstr_eq_refill op c1 c2, Instr.refill_congr h]

theorem opcodeLength_cases : ∀ op : Byte, opcodeLength op = 1 ∨ opcodeLength op = 2 ∨ opcodeLength op = 3 := by
  decide

/-- From three bytes on, the byte-list decoder gives what `decodeInstr` gives (R62, R72). -/
theorem decode_three (op b1 b2 : Byte) : ∃ rest, decode [op, b1, b2] = .ok (decodeInstr op b1 b2, rest) := by
  obtain hlen | hlen | hlen := opcodeLength_cases op
  · have hi : decodeInstr op b1 b2 = decodeInstr op 0 0 := decodeInstr_congr (by simp [hlen])
    exact ⟨[b1, b2], by simp only [decode, hlen, hi]⟩
  · have hi : decodeInstr op b1 b2 = decodeInstr op b1 0 := decodeInstr_congr (by simp [hlen])
    exact ⟨[b2], by simp only [decode, hlen, hi]⟩
  · exact ⟨[], by simp only [decode, hlen]⟩

end Sys2Proof

namespace Sys2Proof.Machine

/-! ## The bytes at PC -/

theorem fetchByte_zero (s : State) : fetchByte 0 s = memRead s.pc s := by simp [fetchByte]

/-! ## Placing bytes where the router reads them -/

/-- The byte of RAM (left) or of the image (right) that the router reads at an address. -/
def cellOf (a : Word) (s : State) : Nat ⊕ Nat :=
  if romBase ≤ a.toNat then .inr (prgOffset s a) else .inl a.toNat

theorem cellOf_of_lt {a : Word} (s : State) (h : a.toNat < romBase) : cellOf a s = .inl a.toNat :=
  if_neg (Nat.not_le.mpr h)

theorem cellOf_of_ge {a : Word} (s : State) (h : romBase ≤ a.toNat) : cellOf a s = .inr (prgOffset s a) := if_pos h

/-- Placing a byte changes the two stores alone. -/
theorem placeByte_eq (a : Word) (v : Byte) (s : State) :
    ∃ ram prg, placeByte a v s = { s with ram := ram, prg := prg } := by
  unfold placeByte
  split
  · exact ⟨s.ram, _, rfl⟩
  · exact ⟨_, s.prg, rfl⟩

@[simp] theorem cellOf_placeByte (b a : Word) (v : Byte) (s : State) : cellOf b (placeByte a v s) = cellOf b s := by
  obtain ⟨ram, prg, h⟩ := placeByte_eq a v s
  rw [h]
  rfl

/-- A read after a byte was placed: that byte at every address that reads the same cell, any other as before. -/
theorem memRead_placeByte (b a : Word) (v : Byte) (s : State) :
    memRead b (placeByte a v s) = if cellOf b s = cellOf a s then v else memRead b s := by
  by_cases ha : romBase ≤ a.toNat
  · rw [placeByte, if_pos ha, cellOf_of_ge s ha]
    by_cases hb : romBase ≤ b.toNat
    · rw [cellOf_of_ge s hb, memRead, memRead, if_pos hb, if_pos hb]
      simp only [Sum.inr.injEq]
      exact Memory.read_write ..
    · rw [cellOf_of_lt s (Nat.not_le.mp hb), if_neg Sum.inl_ne_inr, memRead, memRead, if_neg hb, if_neg hb]
  · rw [placeByte, if_neg ha, memRead_ramWrite, cellOf_of_lt s (Nat.not_le.mp ha)]
    by_cases hb : romBase ≤ b.toNat
    · rw [cellOf_of_ge s hb, if_neg Sum.inr_ne_inl, if_neg (by omega)]
    · rw [cellOf_of_lt s (Nat.not_le.mp hb)]
      simp only [Sum.inl.injEq, BitVec.toNat_inj, Nat.not_le.mp hb, and_true]

/-- Two addresses one or two apart read different cells, when the image they may both read has three bytes or more. -/
theorem cellOf_add_ne {a : Word} {s : State} {d : Nat} (h0 : 0 < d) (h2 : d ≤ 2)
    (hlen : romBase ≤ a.toNat → 3 ≤ s.prgLen) : cellOf (a + BitVec.ofNat 16 d) s ≠ cellOf a s := by
  have hadd : (a + BitVec.ofNat 16 d).toNat = (a.toNat + d) % 2 ^ 16 := by simp [BitVec.toNat_add]
  have hlt := a.isLt
  by_cases ha : romBase ≤ a.toNat
  · rw [cellOf_of_ge s ha]
    by_cases hb : romBase ≤ (a + BitVec.ofNat 16 d).toNat
    · rw [cellOf_of_ge s hb, Ne, Sum.inr.injEq, prgOffset, prgOffset]
      have hoff : (a + BitVec.ofNat 16 d).toNat - romBase = a.toNat - romBase + d := by
        simp only [romBase] at ha hb ⊢
        omega
      rw [hoff]
      intro heq
      have hle := Nat.le_of_dvd h0 (Nat.add_modEq_left_iff.mp heq)
      have := hlen ha
      omega
    · rw [cellOf_of_lt s (Nat.not_le.mp hb)]
      exact Sum.inl_ne_inr
  · rw [cellOf_of_lt s (Nat.not_le.mp ha)]
    by_cases hb : romBase ≤ (a + BitVec.ofNat 16 d).toNat
    · rw [cellOf_of_ge s hb]
      exact Sum.inr_ne_inl
    · rw [cellOf_of_lt s (Nat.not_le.mp hb), Ne, Sum.inl.injEq]
      simp only [romBase] at ha
      omega

theorem fetchesRom_iff {s : State} : fetchesRom s = true ↔
    romBase ≤ s.pc.toNat ∨ romBase ≤ (s.pc + 1).toNat ∨ romBase ≤ (s.pc + 2).toNat := by
  simp only [fetchesRom, Bool.or_eq_true, decide_eq_true_eq, or_assoc]

/-- An image that takes part in the fetch has room for three different bytes. -/
theorem three_le_prgLen_withRoomForWord (s : State) :
    fetchesRom (withRoomForWord s) = true → 3 ≤ (withRoomForWord s).prgLen := by
  unfold withRoomForWord
  split
  · exact fun _ => (by decide : 3 ≤ 0x8000)
  · rename_i hroom
    intro h
    simpa [h] using hroom

/-- Making room for a word changes the length of the image alone. -/
theorem withRoomForWord_eq (s : State) : ∃ n, withRoomForWord s = { s with prgLen := n } := by
  unfold withRoomForWord
  split
  · exact ⟨_, rfl⟩
  · exact ⟨s.prgLen, rfl⟩

theorem placeAtPC_eq (b0 b1 b2 : Byte) (s : State) :
    ∃ ram prg, placeAtPC b0 b1 b2 s = { s with ram := ram, prg := prg } := by
  obtain ⟨ram0, prg0, h0⟩ := placeByte_eq s.pc b0 s
  obtain ⟨ram1, prg1, h1⟩ := placeByte_eq (s.pc + 1) b1 (placeByte s.pc b0 s)
  obtain ⟨ram2, prg2, h2⟩ := placeByte_eq (s.pc + 2) b2 (placeByte (s.pc + 1) b1 (placeByte s.pc b0 s))
  exact ⟨ram2, prg2, by rw [placeAtPC, h2, h1, h0]⟩

theorem withFetchWord_eq (s : State) (nbits w : Nat) :
    ∃ ram prg n, s.withFetchWord nbits w = { s with ram := ram, prg := prg, prgLen := n } := by
  obtain ⟨n, hn⟩ := withRoomForWord_eq s
  obtain ⟨ram, prg, h⟩ := placeAtPC_eq (tableByte nbits w 0) (tableByte nbits w 1) (tableByte nbits w 2)
    (withRoomForWord s)
  exact ⟨ram, prg, n, by rw [State.withFetchWord, h, hn]⟩

theorem memRead_placeAtPC (b : Word) (b0 b1 b2 : Byte) (s : State) :
    memRead b (placeAtPC b0 b1 b2 s) =
      if cellOf b s = cellOf (s.pc + 2) s then b2 else if cellOf b s = cellOf (s.pc + 1) s then b1
      else if cellOf b s = cellOf s.pc s then b0 else memRead b s := by
  simp only [placeAtPC, memRead_placeByte, cellOf_placeByte]

/-- The fetch reads the three bytes placed at PC, since they lie in three different cells. -/
theorem fetchInstr_placeAtPC {s : State} (hroom : fetchesRom s = true → 3 ≤ s.prgLen) (b0 b1 b2 : Byte) :
    fetchInstr (placeAtPC b0 b1 b2 s) = decodeInstr b0 b1 b2 := by
  have hpc : (placeAtPC b0 b1 b2 s).pc = s.pc := by
    obtain ⟨ram, prg, h⟩ := placeAtPC_eq b0 b1 b2 s
    rw [h]
  have h01 : cellOf (s.pc + 1) s ≠ cellOf s.pc s :=
    cellOf_add_ne (by decide) (by decide) fun h => hroom (fetchesRom_iff.mpr (.inl h))
  have h02 : cellOf (s.pc + 2) s ≠ cellOf s.pc s :=
    cellOf_add_ne (by decide) (by decide) fun h => hroom (fetchesRom_iff.mpr (.inl h))
  have h12 : cellOf (s.pc + 2) s ≠ cellOf (s.pc + 1) s := by
    rw [show s.pc + 2 = s.pc + 1 + 1 from (add_assoc s.pc 1 1).symm]
    exact cellOf_add_ne (by decide) (by decide) fun h => hroom (fetchesRom_iff.mpr (.inr (.inl h)))
  have h0 : fetchByte 0 (placeAtPC b0 b1 b2 s) = b0 := by
    rw [fetchByte_zero, hpc, memRead_placeAtPC, if_neg h02.symm, if_neg h01.symm, if_pos rfl]
  have h1 : fetchByte 1 (placeAtPC b0 b1 b2 s) = b1 := by
    rw [fetchByte, hpc]
    exact (memRead_placeAtPC (s.pc + 1) ..).trans (by rw [if_neg h12.symm, if_pos rfl])
  have h2 : fetchByte 2 (placeAtPC b0 b1 b2 s) = b2 := by
    rw [fetchByte, hpc]
    exact (memRead_placeAtPC (s.pc + 2) ..).trans (if_pos rfl)
  rw [fetchInstr, h0, h1, h2]

theorem decodeTableWord_eq (nbits w : Nat) : decodeTableWord nbits w =
    some (decodeInstr (tableByte nbits w 0) (tableByte nbits w 1) (tableByte nbits w 2)) := by
  obtain ⟨rest, h⟩ := decode_three (tableByte nbits w 0) (tableByte nbits w 1) (tableByte nbits w 2)
  rw [decodeTableWord, h]

end Sys2Proof.Machine

namespace Sys2Proof.Proofs

/-- Settles O7: the three bytes placed at PC are fetched back and decode to the instruction of the word. -/
theorem fetchWordIsRunByTheNextStep : Obligations.FetchWordIsRunByTheNextStep := by
  intro s nbits w i hi
  have hfetch : fetchInstr (s.withFetchWord nbits w) = i := by
    rw [decodeTableWord_eq, Option.some.injEq] at hi
    rw [State.withFetchWord, fetchInstr_placeAtPC (three_le_prgLen_withRoomForWord s), hi]
  refine ⟨by rw [step, hfetch], ?_⟩
  obtain ⟨ram, prg, n, h⟩ := withFetchWord_eq s nbits w
  rw [h]
  exact ⟨rfl, rfl, fun r _ => by cases r <;> rfl⟩

end Sys2Proof.Proofs
end

section
/-! PROOFS (20_memory). What an instruction does to memory, said once: an instruction with a location to write is one
write to it (R82), every other completes and stores at the stack addresses it pushes to alone (R51, R79). -/

open Sys2Proof Sys2Proof.Machine Sys2Proof.Claims

namespace Sys2Proof.Machine

/-! ## Writes to a location -/

/-- A location write faults with the fault of the location, or not at all (R40, R42). -/
theorem locWrite_eq_fault_iff (l : Loc) (v : Byte) (s : State) (f : Fault) :
    locWrite l v s = .fault f ↔ l.fault = some f := by
  rcases locWrite_cases l v s with ⟨rfl, h⟩ | ⟨i, rfl, h⟩ | ⟨a, rfl, ha, h⟩ | ⟨a, rfl, ha, h⟩ <;> rw [h]
  · simp [Loc.fault]
  · simp [Loc.fault]
  · simp [Loc.fault, Nat.not_le.mpr ha]
  · simp [Loc.fault, ha]

/-- A location write that completes leaves every address but that of the location. -/
theorem memRead_of_locWrite {l : Loc} {v : Byte} {s t : State} (h : locWrite l v s = .next t) {b : Word}
    (hb : l ≠ .mem b) : memRead b t = memRead b s := by
  rcases locWrite_cases l v s with ⟨-, he⟩ | ⟨i, -, he⟩ | ⟨a, hl, -, he⟩ | ⟨a, -, -, he⟩ <;>
    rw [he] at h <;> cases h
  · rfl
  · exact memRead_ramWrite_of_ne v s fun e => hb (e ▸ hl)

/-- A write to a memory location that completes is read back. -/
theorem memRead_of_locWrite_self {a : Word} {v : Byte} {s t : State} (h : locWrite (.mem a) v s = .next t) :
    memRead a t = v := by
  by_cases ha : a.toNat < romBase
  · rw [locWrite, memWrite_of_lt v s ha] at h
    cases h
    rw [memRead_ramWrite, if_pos ⟨rfl, ha⟩]
  · rw [locWrite, memWrite_of_ge v s (Nat.not_lt.mp ha)] at h
    cases h

/-! ## The instructions that write a location, as one of the two shapes -/

section
variable (o : Operand) (s : State)

theorem exec_sta : exec (.sta o) s = storeOp o s.a s := rfl
theorem exec_stx : exec (.stx o) s = storeOp o s.x s := rfl
theorem exec_sty : exec (.sty o) s = storeOp o s.y s := rfl
theorem exec_sax : exec (.sax o) s = storeOp o (s.a &&& s.x) s := rfl

theorem exec_asl : exec (.asl o) s = modifyOp o (fun m => (shiftAsl m).r) (fun m => setShift (shiftAsl m)) s := rfl
theorem exec_rol : exec (.rol o) s =
    modifyOp o (fun m => (shiftRol m (getFlag .C s.p)).r) (fun m => setShift (shiftRol m (getFlag .C s.p))) s := rfl
theorem exec_lsr : exec (.lsr o) s = modifyOp o (fun m => (shiftLsr m).r) (fun m => setShift (shiftLsr m)) s := rfl
theorem exec_ror : exec (.ror o) s =
    modifyOp o (fun m => (shiftRor m (getFlag .C s.p)).r) (fun m => setShift (shiftRor m (getFlag .C s.p))) s := rfl
theorem exec_dec : exec (.dec o) s = modifyOp o (fun m => m - 1) (fun m => setZN (m - 1)) s := rfl
theorem exec_inc : exec (.inc o) s = modifyOp o (fun m => m + 1) (fun m => setZN (m + 1)) s := rfl

end

/-! ## Every instruction -/

/-- An instruction that writes its operand's location is a pure store or a read-modify-write of it (R82). -/
theorem exec_of_writes {i : Instr} {o : Operand} (h : Instr.writes i = some o) (s : State) :
    (∃ v, exec i s = storeOp o v s) ∨ ∃ r f, exec i s = modifyOp o r f s := by
  cases i <;> simp only [Instr.writes, reduceCtorEq, Option.some.injEq] at h <;> subst h
  case sta o => exact .inl ⟨_, exec_sta o s⟩
  case stx o => exact .inl ⟨_, exec_stx o s⟩
  case sty o => exact .inl ⟨_, exec_sty o s⟩
  case sax o => exact .inl ⟨_, exec_sax o s⟩
  case asl o => exact .inr ⟨_, _, exec_asl o s⟩
  case rol o => exact .inr ⟨_, _, exec_rol o s⟩
  case lsr o => exact .inr ⟨_, _, exec_lsr o s⟩
  case ror o => exact .inr ⟨_, _, exec_ror o s⟩
  case dec o => exact .inr ⟨_, _, exec_dec o s⟩
  case inc o => exact .inr ⟨_, _, exec_inc o s⟩

/-- Either way it is one write of some byte to the location, memory being as before up to that write. -/
theorem exec_eq_locWrite {i : Instr} {o : Operand} (h : Instr.writes i = some o) (s : State) :
    ∃ v u, exec i s = locWrite (resolve o s) v u ∧ MemKept s u := by
  obtain ⟨v, he⟩ | ⟨r, f, he⟩ := exec_of_writes h s
  · exact ⟨v, s.advance o.mode.len, he, fun _ => rfl⟩
  · exact ⟨r (operandValue o s), (s.advance o.mode.len).updP (f (operandValue o s)), he, fun _ => rfl⟩

/-- An instruction that writes no operand's location completes, and memory changes where it pushes alone
(R51, R79). -/
theorem exec_of_writes_none {i : Instr} (h : Instr.writes i = none) (s : State) :
    ∃ t, exec i s = .next t ∧ ∀ b, b ∉ stackBytes i s → memRead b t = memRead b s := by
  cases i
  case sta | stx | sty | sax | asl | rol | lsr | ror | dec | inc => cases h
  case jmp target =>
    cases target
    all_goals
      refine ⟨_, rfl, fun b _ => ?_⟩
      rfl
  case pha | php =>
    refine ⟨_, rfl, fun b hb => ?_⟩
    exact (memRead_push _ _ b).trans (if_neg (mt List.mem_singleton.mpr hb))
  case jsr w =>
    refine ⟨_, rfl, fun b hb => ?_⟩
    obtain ⟨h0, h1⟩ := List.ne_and_not_mem_of_not_mem_cons hb
    rw [memRead_setPC, memRead_push16, if_neg h0, if_neg (mt List.mem_singleton.mpr h1)]
  case brk =>
    refine ⟨_, rfl, fun b hb => ?_⟩
    obtain ⟨h0, hb⟩ := List.ne_and_not_mem_of_not_mem_cons hb
    obtain ⟨h1, h2⟩ := List.ne_and_not_mem_of_not_mem_cons hb
    rw [memRead_takeTrap, if_neg h0, if_neg h1, if_neg (mt List.mem_singleton.mpr h2)]
  case rti =>
    refine ⟨_, rfl, fun b _ => ?_⟩
    exact memRead_returnFromTrap b s
  all_goals
    refine ⟨_, rfl, fun b _ => ?_⟩
    rfl

/-- An instruction faults exactly when it writes a location that faults (R173, R174). -/
theorem exec_eq_fault_iff (i : Instr) (s : State) (f : Fault) :
    exec i s = .fault f ↔ ∃ o, Instr.writes i = some o ∧ (resolve o s).fault = some f := by
  cases hw : Instr.writes i with
  | none =>
    obtain ⟨t, ht, -⟩ := exec_of_writes_none hw s
    simp [ht]
  | some o =>
    obtain ⟨v, u, he, -⟩ := exec_eq_locWrite hw s
    rw [he, locWrite_eq_fault_iff]
    simp

/-! ## The fetch after a store -/

theorem fetchByte_zero_of_storeOp {o : Operand} {v : Byte} {s t : State} (h : storeOp o v s = .next t)
    (hl : resolve o s = .mem t.pc) : fetchByte 0 t = v := by
  rw [storeOp, hl] at h
  rw [fetchByte_zero, memRead_of_locWrite_self h]

theorem fetchByte_zero_of_modifyOp {o : Operand} {r : Byte → Byte} {f : Byte → Byte → Byte} {s t : State}
    (h : modifyOp o r f s = .next t) (hl : resolve o s = .mem t.pc) : fetchByte 0 t = r (operandValue o s) := by
  simp only [modifyOp, hl] at h
  rw [fetchByte_zero, memRead_of_locWrite_self h]

/-! ## The trace enable -/

/-- An outcome with a function applied to its next state. -/
def mapNext (g : State → State) : Host.Outcome State Fault Refusal → Host.Outcome State Fault Refusal
  | .next t => .next (g t)
  | .fault f => .fault f
  | .refused r => .refused r

theorem locWrite_setTrace (b : Bool) (l : Loc) (v : Byte) (s : State) :
    locWrite l v (applyHost (.setTrace b) s) = mapNext (applyHost (.setTrace b)) (locWrite l v s) := by
  cases l with
  | acc => rfl
  | const i => rfl
  | mem a =>
    by_cases ha : a.toNat < romBase
    · rw [locWrite, locWrite, memWrite_of_lt v _ ha, memWrite_of_lt v _ ha]
      rfl
    · rw [locWrite, locWrite, memWrite_of_ge v _ (Nat.not_lt.mp ha), memWrite_of_ge v _ (Nat.not_lt.mp ha)]
      rfl

theorem storeOp_setTrace (b : Bool) (o : Operand) (v : Byte) (s : State) :
    storeOp o v (applyHost (.setTrace b) s) = mapNext (applyHost (.setTrace b)) (storeOp o v s) :=
  locWrite_setTrace b (resolve o s) v (s.advance o.mode.len)

theorem modifyOp_setTrace (b : Bool) (o : Operand) (r : Byte → Byte) (f : Byte → Byte → Byte) (s : State) :
    modifyOp o r f (applyHost (.setTrace b) s) = mapNext (applyHost (.setTrace b)) (modifyOp o r f s) :=
  locWrite_setTrace b (resolve o s) (r (operandValue o s)) ((s.advance o.mode.len).updP (f (operandValue o s)))

/-- No instruction reads the trace enable: set before it or after it, the outcome is the same (R49). -/
theorem exec_setTrace (b : Bool) (i : Instr) (s : State) :
    exec i (applyHost (.setTrace b) s) = mapNext (applyHost (.setTrace b)) (exec i s) := by
  cases i
  case sta | stx | sty | sax => exact storeOp_setTrace b _ _ s
  case asl | lsr | rol | ror | dec | inc =>
    simp only [exec_asl, exec_lsr, exec_rol, exec_ror, exec_dec, exec_inc]
    exact modifyOp_setTrace b _ _ _ s
  case jmp target => cases target <;> rfl
  all_goals rfl

end Sys2Proof.Machine

namespace Sys2Proof.Proofs

/-- Settles O9: a step that writes a location faults as the location does, every other completes. -/
theorem stepFaultsExactlyOnForbiddenWrites : Obligations.StepFaultsExactlyOnForbiddenWrites :=
  fun s f => exec_eq_fault_iff (fetchInstr s) s f

/-- Settles O56: the one write to the operand's location, or the pushes. -/
theorem memoryChangesOnlyWhereWritten : Obligations.MemoryChangesOnlyWhereWritten := by
  intro i s t b ht hne
  cases hw : Instr.writes i with
  | none =>
    obtain ⟨u, hu, hkept⟩ := exec_of_writes_none hw s
    obtain rfl : u = t := by rwa [hu, Host.Outcome.next.injEq] at ht
    exact .inr (not_not.mp fun hb => hne (hkept b hb))
  | some o =>
    obtain ⟨v, u, he, hkept⟩ := exec_eq_locWrite hw s
    rw [he] at ht
    exact .inl ⟨o, rfl, not_not.mp fun hl => hne ((memRead_of_locWrite ht hl).trans (hkept b))⟩

/-- Settles O25: the opcode fetch reads the location the store has written. -/
theorem storeIsSeenByTheNextFetch : Obligations.StoreIsSeenByTheNextFetch := by
  intro i o s t _ ht hl
  refine ⟨?_, ?_, ?_, ?_, ?_, ?_⟩ <;> rintro rfl
  · exact fetchByte_zero_of_storeOp (exec_sta o s ▸ ht) hl
  · exact fetchByte_zero_of_storeOp (exec_stx o s ▸ ht) hl
  · exact fetchByte_zero_of_storeOp (exec_sty o s ▸ ht) hl
  · exact fetchByte_zero_of_storeOp (exec_sax o s ▸ ht) hl
  · exact fetchByte_zero_of_modifyOp (exec_inc o s ▸ ht) hl
  · exact fetchByte_zero_of_modifyOp (exec_dec o s ▸ ht) hl

/-- Settles O18: the fetch does not depend on the trace enable, and no instruction reads it. -/
theorem traceNeverChangesTheOutcome : Obligations.TraceNeverChangesTheOutcome := by
  intro s b
  refine (exec_setTrace b (fetchInstr s) s).trans ?_
  rw [step]
  cases exec (fetchInstr s) s <;> rfl

end Sys2Proof.Proofs
end

section
/-! PROOFS (30_encoding). Decode and encode are inverse to each other: an instruction is its opcode byte and its
operand bytes, and the opcode byte of every row of the table leads the decoder back to that row. -/

open Sys2Proof Sys2Proof.Machine Sys2Proof.Claims

namespace Sys2Proof

/-! ## An instruction filled with its own operand bytes -/

theorem operandOf_mode (o : Operand) (b1 b2 : Byte) : operandOf o.mode b1 b2 = some (o.refill b1 b2) := by
  cases o <;> rfl

theorem operandOf_argMode (arg : Option Operand) (b1 b2 : Byte) :
    operandOf (argMode arg) b1 b2 = arg.map (·.refill b1 b2) := by
  cases arg with
  | none => rfl
  | some o => exact operandOf_mode o b1 b2

/-- Every operand is the one its own bytes fill in. -/
theorem Operand.exists_refill_self (o : Operand) : ∃ b1 b2, o.refill b1 b2 = o := by
  cases o with
  | acc => exact ⟨0, 0, rfl⟩
  | imm n | zp n | zpx n | zpy n | indx n | indy n => exact ⟨n, 0, rfl⟩
  | abs w | absx w | absy w => exact ⟨lo w, hi w, by simp [Operand.refill, operandOf, Operand.mode]⟩

/-- Every instruction is the one its own operand bytes fill in. -/
theorem Instr.exists_refill_self (i : Instr) : ∃ b1 b2, i.refill b1 b2 = i := by
  cases i
  case jmp target => cases target with | abs w | ind w => exact ⟨lo w, hi w, by simp [Instr.refill]⟩
  case jsr w => exact ⟨lo w, hi w, by simp [Instr.refill]⟩
  case bpl r | bmi r | bvc r | bvs r | bcc r | bcs r | bne r | beq r => exact ⟨r, 0, rfl⟩
  case nopInert op arg =>
    cases arg with
    | none => exact ⟨0, 0, rfl⟩
    | some o =>
      obtain ⟨b1, b2, ho⟩ := o.exists_refill_self
      exact ⟨b1, b2, by simp [Instr.refill, ho]⟩
  case rts | rti | brk | tax | txa | tay | tya | tsx | txs | clc | sec | cli | sei | clv | cld | sed | pha | php | pla
    | plp | inx | iny | dex | dey | nop | gap => exact ⟨0, 0, rfl⟩
  all_goals
    rename_i o
    obtain ⟨b1, b2, ho⟩ := o.exists_refill_self
    exact ⟨b1, b2, by simp only [Instr.refill, ho]⟩

theorem Operand.refill_refill (o : Operand) (c1 c2 b1 b2 : Byte) : (o.refill c1 c2).refill b1 b2 = o.refill b1 b2 := by
  cases o <;> rfl

theorem Instr.refill_refill (i : Instr) (c1 c2 b1 b2 : Byte) : (i.refill c1 c2).refill b1 b2 = i.refill b1 b2 := by
  cases i
  case jmp target => cases target <;> rfl
  case nopInert op arg => cases arg <;> simp [Instr.refill, Operand.refill_refill]
  all_goals simp only [Instr.refill, Operand.refill_refill]

@[simp] theorem Instr.length_refill (i : Instr) (b1 b2 : Byte) : (i.refill b1 b2).length = i.length := by
  cases i
  case jmp target => cases target <;> rfl
  case nopInert op arg => cases arg <;> simp [Instr.refill, Instr.length, Instr.mode, argMode]
  all_goals simp only [Instr.refill, Instr.length, Instr.mode, Operand.mode_refill]

/-! ## The opcode byte of a row leads back to the row -/

/-- A family with one constructor: when the decoder finds each of its modes, it finds each of its rows. -/
theorem decodeInstr_of_modes {mk : Operand → Instr} {modes : List Mode}
    (rows : ∀ m ∈ modes, ∀ z ∈ operandOf m 0 0, decodeInstr (mk z).opcode 0 0 = mk z) {o : Operand}
    (ho : modes.contains o.mode = true) (hmk : (mk o).refill 0 0 = mk (o.refill 0 0)) :
    decodeInstr (mk o).opcode 0 0 = (mk o).refill 0 0 := by
  rw [← Instr.opcode_refill (mk o) 0 0, hmk]
  exact rows o.mode (List.contains_iff_mem.mp ho) _ (operandOf_mode o 0 0)

/-- A family whose rows carry their opcode byte: when the decoder finds the bytes listed, it finds each of its rows. -/
theorem decodeInstr_of_rows {mk : Byte → Operand → Instr} {table : List (Byte × Mode)}
    (rows : ∀ r ∈ table, ∀ z ∈ operandOf r.2 0 0, decodeInstr r.1 0 0 = mk r.1 z) {op : Byte} {o : Operand}
    (ho : table.contains (op, o.mode) = true) : decodeInstr op 0 0 = mk op (o.refill 0 0) :=
  rows (op, o.mode) (List.contains_iff_mem.mp ho) _ (operandOf_mode o 0 0)

/-- STA has the modes of group 01 but the immediate (R147). -/
theorem contains_erase_of_wellFormed_sta {o : Operand} (h : (Instr.sta o).WellFormed = true) :
    (group01Modes.erase .immediate).contains o.mode = true := by
  obtain ⟨hne, hmem⟩ := Bool.and_eq_true_iff.mp h
  exact List.contains_iff_mem.mpr
    ((List.mem_erase_of_ne (bne_iff_ne.mp hne)).mpr (List.contains_iff_mem.mp hmem))

theorem decodeInstr_inertRows : ∀ r ∈ inertRows, decodeInstr r.1 0 0 = .nopInert r.1 (operandOf r.2 0 0) := by decide

theorem decodeInstr_gapRows : ∀ op ∈ gapRows, decodeInstr op 0 0 = .gap op := by decide

/-- The opcode byte of a row of the table decodes to that row (R67, R69, R70, R142 to R171). -/
theorem decodeInstr_opcode_zero {i : Instr} (h : i.WellFormed = true) : decodeInstr i.opcode 0 0 = i.refill 0 0 := by
  cases i
  case jmp target => cases target <;> rfl
  case sta o => exact decodeInstr_of_modes (by decide) (contains_erase_of_wellFormed_sta h) rfl
  case ora | and | eor | adc | lda | cmp | sbc | asl | rol | lsr | ror | stx | ldx | dec | inc | bit | sty | ldy | cpy
    | cpx | sax | alr | arr | axs | sbcUndoc => exact decodeInstr_of_modes (by decide) h rfl
  case anc op o => exact decodeInstr_of_rows (by decide) h
  case las op o => exact decodeInstr_of_rows (by decide) h
  case nopInert op arg =>
    have hrow := decodeInstr_inertRows (op, argMode arg) (List.contains_iff_mem.mp h)
    rwa [operandOf_argMode] at hrow
  case gap op => exact decodeInstr_gapRows op (List.contains_iff_mem.mp h)
  all_goals rfl

theorem decodeInstr_opcode {i : Instr} (h : i.WellFormed = true) (b1 b2 : Byte) :
    decodeInstr i.opcode b1 b2 = i.refill b1 b2 := by
  rw [decodeInstr_eq_refill, decodeInstr_opcode_zero h, Instr.refill_refill]

theorem opcodeLength_opcode {i : Instr} (h : i.WellFormed = true) : opcodeLength i.opcode = i.length := by
  rw [opcodeLength, decodeInstr_opcode_zero h, Instr.length_refill]

/-! ## The byte-list decoder and the encoder -/

/-- The decoder takes the bytes the opcode asks for and leaves the rest (R62). -/
theorem decode_take_append (op b1 b2 : Byte) (rest : List Byte) :
    decode (op :: ([b1, b2].take (opcodeLength op - 1) ++ rest)) = .ok (decodeInstr op b1 b2, rest) := by
  obtain hlen | hlen | hlen := opcodeLength_cases op
  · have hi : decodeInstr op b1 b2 = decodeInstr op 0 0 := decodeInstr_congr (by simp [hlen])
    simp [decode, hlen, hi]
  · have hi : decodeInstr op b1 b2 = decodeInstr op b1 0 := decodeInstr_congr (by simp [hlen])
    simp [decode, hlen, hi]
  · simp [decode, hlen]

/-- Decoding an encoded row of the table gives it back (R61, R72). -/
theorem decode_encode {i : Instr} (h : i.WellFormed = true) (rest : List Byte) :
    decode (encode i ++ rest) = .ok (i, rest) := by
  obtain ⟨b1, b2, hself⟩ := i.exists_refill_self
  have hbytes : i.operandBytes = [b1, b2].take (opcodeLength i.opcode - 1) := by
    rw [opcodeLength_opcode h, ← Instr.operandBytes_refill, hself]
  rw [encode, List.cons_append, hbytes, decode_take_append, decodeInstr_opcode h, hself]

/-- A byte sequence written as a row's encoding and the bytes after it decodes to that row. -/
theorem decode_of_eq_encode {bytes rest : List Byte} {i : Instr} (h : i.WellFormed = true)
    (hb : bytes = encode i ++ rest) : decode bytes = .ok (i, rest) := hb ▸ decode_encode h rest

theorem wellFormed_decodeInstr_zero : ∀ op : Byte, (decodeInstr op 0 0).WellFormed = true := by decide

/-- Every opcode byte is a row of the table (R72). -/
theorem wellFormed_decodeInstr (op b1 b2 : Byte) : (decodeInstr op b1 b2).WellFormed = true := by
  rw [decodeInstr_eq_refill, Instr.wellFormed_refill, wellFormed_decodeInstr_zero]

/-- Encoding a decoded instruction gives the bytes it was decoded from (R62, R72). -/
theorem encode_decodeInstr (op b1 b2 : Byte) :
    encode (decodeInstr op b1 b2) = op :: [b1, b2].take (opcodeLength op - 1) := by
  rw [encode, opcode_decodeInstr, decodeInstr_eq_refill, Instr.operandBytes_refill, opcodeLength]

/-! ## The gaps and the Y override -/

/-- The gaps are the bytes the decoder has no other meaning for (R66, R70). -/
theorem classOf_eq_gap_iff : ∀ op : Byte, classOf op = .gap ↔ decodeInstr op 0 0 = .gap op := by decide

/-- A gap takes no operand bytes, so what follows it plays no part. -/
theorem decodeInstr_eq_gap_iff (op b1 b2 : Byte) :
    decodeInstr op b1 b2 = .gap op ↔ decodeInstr op 0 0 = .gap op := by
  rw [decodeInstr_eq_refill]
  generalize decodeInstr op 0 0 = i
  cases i
  case jmp target => cases target <;> simp [Instr.refill]
  all_goals simp [Instr.refill]

/-- In the `zp,X` cells the override holds for four opcodes (R64). -/
theorem yOverride_of_zeroPageX : ∀ op : Byte, cellMode (bbbOf op) (ccOf op) = some .zeroPageX →
    yOverride op = decide (op ∈ [0x96, 0x97, 0xB6, (0xB7 : Byte)]) := by decide

/-- In the `abs,X` cells the override holds for two opcodes (R64). -/
theorem yOverride_of_absoluteX : ∀ op : Byte, cellMode (bbbOf op) (ccOf op) = some .absoluteX →
    yOverride op = decide (op ∈ [0xBE, (0xBF : Byte)]) := by decide

theorem resolverMode_of_zeroPageX {op : Byte} (h : cellMode (bbbOf op) (ccOf op) = some .zeroPageX) :
    resolverMode op = some (if yOverride op then .zeroPageY else .zeroPageX) := by
  rw [resolverMode, h]

theorem resolverMode_of_absoluteX {op : Byte} (h : cellMode (bbbOf op) (ccOf op) = some .absoluteX) :
    resolverMode op = some (if yOverride op then .absoluteY else .absoluteX) := by
  rw [resolverMode, h]

theorem resolverMode_of_ne {op : Byte} (hz : cellMode (bbbOf op) (ccOf op) ≠ some .zeroPageX)
    (ha : cellMode (bbbOf op) (ccOf op) ≠ some .absoluteX) : resolverMode op = cellMode (bbbOf op) (ccOf op) := by
  unfold resolverMode
  split
  · next h => exact absurd h hz
  · next h => exact absurd h ha
  · rfl

/-! ## Writes to an immediate operand -/

/-- The opcodes whose operation writes back to an immediate location (R71, R173). -/
theorem writes_immediate_iff : ∀ op : Byte,
    (Machine.Instr.writes (decodeInstr op 0 0)).map Operand.mode = some .immediate ↔
      op ∈ [0x02, 0x22, 0x42, 0x62, (0x8B : Byte)] := by decide

theorem Instr.writes_refill (i : Instr) (b1 b2 : Byte) :
    Machine.Instr.writes (i.refill b1 b2) = (Machine.Instr.writes i).map (·.refill b1 b2) := by
  cases i
  case jmp target => cases target <;> rfl
  all_goals rfl

theorem Operand.refill_eq_imm_iff (o : Operand) (b1 b2 i : Byte) :
    o.refill b1 b2 = .imm i ↔ o.mode = .immediate ∧ i = b1 := by
  cases o <;> simp [Operand.refill, operandOf, Operand.mode, eq_comm]

/-- The instruction writes to an immediate operand exactly for the five opcodes, and the operand is the byte after
the opcode (R173). -/
theorem writes_decodeInstr_eq_imm_iff (op b1 b2 i : Byte) :
    Machine.Instr.writes (decodeInstr op b1 b2) = some (.imm i) ↔
      op ∈ [0x02, 0x22, 0x42, 0x62, (0x8B : Byte)] ∧ i = b1 := by
  rw [decodeInstr_eq_refill, Instr.writes_refill, ← writes_immediate_iff]
  cases Machine.Instr.writes (decodeInstr op 0 0) <;> simp [Operand.refill_eq_imm_iff]

end Sys2Proof

namespace Sys2Proof.Machine

/-- Only an immediate operand is a constant location, and it is its own byte's (R88). -/
theorem fault_resolve_eq_constantWrite_iff (o : Operand) (s : State) (i : Byte) :
    (resolve o s).fault = some (.constantWrite i) ↔ o = .imm i := by
  cases o <;> simp [resolve, Loc.fault]

/-- An instruction ends in `Fatal(ConstantWrite)` exactly when it writes to an immediate operand (R173). -/
theorem exec_eq_constantWrite_iff (i : Instr) (s : State) (n : Byte) :
    exec i s = .fault (.constantWrite n) ↔ Instr.writes i = some (.imm n) := by
  simp [exec_eq_fault_iff, fault_resolve_eq_constantWrite_iff]

end Sys2Proof.Machine

namespace Sys2Proof.Proofs

/-- Settles O2, by `decode_encode`. -/
theorem decodeOfEncodeIsTheInstruction : Obligations.DecodeOfEncodeIsTheInstruction :=
  fun _ rest h => decode_encode h rest

/-- Settles O3: the opcode byte decides the row and its length, the operand bytes fill it. -/
theorem encodeOfDecodeIsTheBytes : Obligations.EncodeOfDecodeIsTheBytes := by
  intro op b1 b2
  refine ⟨wellFormed_decodeInstr op b1 b2, ?_⟩
  rw [encode_decodeInstr]
  obtain hlen | hlen | hlen := opcodeLength_cases op <;> simp [hlen]

/-- Settles O10: a step faults so exactly when the instruction fetched writes to an immediate operand. -/
theorem constantWriteIsRaisedByFiveOpcodes : Obligations.ConstantWriteIsRaisedByFiveOpcodes := fun s i =>
  (exec_eq_constantWrite_iff (fetchInstr s) s i).trans (writes_decodeInstr_eq_imm_iff ..)

/-- Settles O1: the fifteen sequences are the encodings of the instructions, followed by the bytes left over. -/
theorem specWordsDecode : Obligations.SpecWordsDecode := by
  unfold Obligations.SpecWordsDecode
  and_intros
  iterate 15 exact decode_of_eq_encode rfl rfl
  · rfl
  · rfl

/-- Settles O4: the counts by evaluation, the gaps by what the decoder gives for the opcode byte. -/
theorem decodeClassesPartitionTheOpcodes : Obligations.DecodeClassesPartitionTheOpcodes := by
  refine ⟨rfl, rfl, rfl, by decide, fun op => ?_⟩
  simp [decodeInstr_eq_gap_iff, classOf_eq_gap_iff]

/-- Settles O5, cell by cell. -/
theorem yOverrideIsExactlySixOpcodes : Obligations.YOverrideIsExactlySixOpcodes := by
  intro op
  refine ⟨fun h => ?_, fun h => ?_, resolverMode_of_ne⟩
  · rw [resolverMode_of_zeroPageX h, yOverride_of_zeroPageX op h]
    simp
  · rw [resolverMode_of_absoluteX h, yOverride_of_absoluteX op h]
    simp

end Sys2Proof.Proofs
end

section
/-! PROOFS (40_fetch_dispatch). One step from fetch to outcome: the bytes at PC always decode (R77, R78), every
instruction completes or ends in one of the two fatal reasons (R84), and the host's block follows the step. -/

open Sys2Proof Sys2Proof.Machine Sys2Proof.Claims

namespace Sys2Proof

/-! ## Opcodes that write no location -/

theorem writes_decodeInstr_zero_of_classOf_ne :
    ∀ op : Byte, classOf op ≠ .resolved → Machine.Instr.writes (decodeInstr op 0 0) = none := by decide

/-- Only a resolved opcode writes a location, whatever bytes follow it (R82). -/
theorem writes_decodeInstr_of_classOf_ne {op : Byte} (h : classOf op ≠ .resolved) (b1 b2 : Byte) :
    Machine.Instr.writes (decodeInstr op b1 b2) = none := by
  rw [decodeInstr_eq_refill, Instr.writes_refill, writes_decodeInstr_zero_of_classOf_ne op h, Option.map_none]

/-- The rows listed as gaps are the opcode bytes that decode to one (R70). -/
theorem mem_gapRows_iff (op : Byte) : op ∈ gapRows ↔ ∃ b1 b2, decodeInstr op b1 b2 = .gap op := by
  constructor
  · intro h
    exact ⟨0, 0, decodeInstr_gapRows op h⟩
  · rintro ⟨b1, b2, h⟩
    have hwf : (Instr.gap op).WellFormed = true := h ▸ wellFormed_decodeInstr op b1 b2
    exact List.contains_iff_mem.mp hwf

end Sys2Proof

namespace Sys2Proof.Machine

/-! ## Fetch and execution -/

/-- The bytes at PC decode to the instruction the fetch unit gives (R77, R78). -/
theorem decode_fetchBytes (s : State) : ∃ rest, decode (fetchBytes s) = .ok (fetchInstr s, rest) :=
  decode_three (fetchByte 0 s) (fetchByte 1 s) (fetchByte 2 s)

/-- Everything an instruction can end in (R84). -/
theorem exec_cases (i : Instr) (s : State) :
    (∃ t, exec i s = .next t) ∨ (∃ n, exec i s = .fault (.constantWrite n)) ∨
      ∃ a, exec i s = .fault (.romWrite a) := by
  cases hw : Instr.writes i with
  | none =>
    obtain ⟨t, ht, -⟩ := exec_of_writes_none hw s
    exact .inl ⟨t, ht⟩
  | some o =>
    obtain ⟨v, u, he, -⟩ := exec_eq_locWrite hw s
    rw [he]
    obtain ⟨-, h⟩ | ⟨n, -, h⟩ | ⟨a, -, -, h⟩ | ⟨a, -, -, h⟩ := locWrite_cases (resolve o s) v u
    · exact .inl ⟨_, h⟩
    · exact .inr (.inl ⟨n, h⟩)
    · exact .inl ⟨_, h⟩
    · exact .inr (.inr ⟨a, h⟩)

/-- The advance of PC changes nothing else. -/
theorem onlyFlags_advance (n : Nat) (s : State) : OnlyFlags n [] s (s.advance n) :=
  ⟨pcPast_advance n s, fun r _ => getReg_advance r n s, fun _ _ => rfl, fun b => memRead_advance b n s⟩

theorem exec_gap (op : Byte) (s : State) : exec (.gap op) s = .next (s.advance 1) := rfl

/-! ## The host's step -/

theorem Block.step_live_of_next {s t : State} (h : Machine.step s = .next t) :
    Block.step (.live s) = .ok (.live t) := by simp [Block.step, h]

theorem Block.step_live_of_fault {s : State} {f : Fault} (h : Machine.step s = .fault f) :
    Block.step (.live s) = .ok (.stopped f) := by simp [Block.step, h]

end Sys2Proof.Machine

namespace Sys2Proof.Proofs

/-- Settles O8, by what the instruction fetched can end in. -/
theorem stepIsTotal : Obligations.StepIsTotal := fun s => exec_cases (fetchInstr s) s

/-- Settles O11: an opcode outside the resolved class has no location to write, and what writes none completes. -/
theorem stepsWithoutStoreComplete : Obligations.StepsWithoutStoreComplete := by
  intro s h
  have hw : Instr.writes (fetchInstr s) = none := by
    obtain hclass | hw := h
    · exact writes_decodeInstr_of_classOf_ne hclass _ _
    · exact hw
  obtain ⟨t, ht, -⟩ := exec_of_writes_none hw s
  exact ⟨t, ht⟩

/-- Settles O6: the byte-list decoder and the fetch unit read the same instruction, always a row of the table. -/
theorem stepRunsTheDecodedInstruction : Obligations.StepRunsTheDecodedInstruction := by
  refine ⟨fun s i rest h => ?_, fun s => ?_⟩ <;> obtain ⟨rest', hd⟩ := decode_fetchBytes s
  · obtain ⟨rfl, -⟩ : fetchInstr s = i ∧ rest' = rest := by simpa [hd] using h
    rfl
  · exact ⟨fetchInstr s, rest', hd, wellFormed_decodeInstr ..⟩

/-- Settles O43: a gap is one advance of PC, and its count is the parameter. -/
theorem gapsOnlyAdvancePC : Obligations.GapsOnlyAdvancePC :=
  ⟨fun op s => ⟨s.advance 1, exec_gap op s, onlyFlags_advance 1 s⟩, mem_gapRows_iff, fun _ _ _ _ => ⟨rfl, rfl⟩⟩

/-- Settles O60: a running block follows the step; the other two refuse it by definition. -/
theorem stoppedBlocksRefuseToStep : Obligations.StoppedBlocksRefuseToStep :=
  ⟨fun _ _ => Block.step_live_of_fault, fun _ _ => Block.step_live_of_next, fun _ => rfl, fun _ => ⟨rfl, rfl⟩⟩

end Sys2Proof.Proofs
end

section
/-! PROOFS (41_addressing). The location of each mode as a number, from the bytes after PC (R86 to R97), and the cycle
count that no address adds to (R100). -/

open Sys2Proof Sys2Proof.Machine Sys2Proof.Claims

namespace Sys2Proof

theorem mode_of_operandOf {m : Mode} {b1 b2 : Byte} {o : Operand} (h : operandOf m b1 b2 = some o) : o.mode = m := by
  cases m <;> cases h <;> rfl

@[simp] theorem toNat_zext16 (b : Byte) : (zext16 b).toNat = b.toNat :=
  BitVec.toNat_setWidth_of_le (by decide)

/-! ## The modes by opcode byte -/

/-- The `zp,Y` cells: the Y override of the `zp,X` column (R64, R91). -/
theorem resolverMode_eq_zeroPageY_iff : ∀ op : Byte,
    resolverMode op = some .zeroPageY ↔ op ∈ [0x96, 0x97, 0xB6, (0xB7 : Byte)] := by decide

/-- The `abs,Y` cells: the column of the odd groups and the Y override of the `abs,X` column (R63, R64, R94). -/
theorem resolverMode_eq_absoluteY_iff : ∀ op : Byte, resolverMode op = some .absoluteY ↔
    (bbbOf op = 6 ∧ (ccOf op = 1 ∨ ccOf op = 3)) ∨ op ∈ [0xBE, (0xBF : Byte)] := by decide

/-- Of the accumulator cell only the shifts and rotates are resolved (R97). -/
theorem resolved_accumulator_iff : ∀ op : Byte, classOf op = .resolved ∧ resolverMode op = some .accumulator ↔
    op ∈ [0x0A, 0x2A, 0x4A, (0x6A : Byte)] := by decide

/-! ## Lengths and default counts -/

/-- The length of a mode the resolver serves (R61, R87). -/
theorem Mode.len_of_resolver {m : Mode} (h : m ∉ [.implied, .relative, .indirect]) : m.len =
    if m = .accumulator then 1 else if m ∈ [.absolute, .absoluteX, .absoluteY] then 3 else 2 := by
  cases m
  case implied | relative | indirect => exact absurd (by decide) h
  all_goals rfl

/-- Only the five bytes of R71 and R173, which return no count, have an entry outside 2 to 8 (R199). -/
theorem cycleTable_bounds : ∀ op : Byte, op ∉ [0x02, 0x22, 0x42, 0x62, (0x8B : Byte)] →
    2 ≤ cycleTable op ∧ cycleTable op ≤ 8 := by decide

end Sys2Proof

namespace Sys2Proof.Machine

/-! ## Bytes and pointers at numeric addresses -/

theorem byteAt_toNat (a : Word) (s : State) : byteAt a.toNat s = (memRead a s).toNat := by simp [byteAt]

theorem byteAt_pc_add (k : Nat) (s : State) : byteAt (s.pc.toNat + k) s = (fetchByte k s).toNat := by
  simp [byteAt, fetchByte, BitVec.ofNat_add]

theorem byteAt_zeroPage (p : Byte) (s : State) : byteAt p.toNat s = (memRead (zext16 p) s).toNat := by
  rw [← toNat_zext16, byteAt_toNat]

/-- A zero-page pointer's value, its high byte from the same page (R45). -/
theorem toNat_readZP16 (p : Byte) (s : State) :
    (readZP16 p s).toNat = byteAt p.toNat s + 256 * byteAt ((p.toNat + 1) % 256) s := by
  have hnext : (p.toNat + 1) % 256 = (p + 1).toNat := by simp [BitVec.toNat_add]
  rw [hnext, byteAt_zeroPage, byteAt_zeroPage, readZP16, toNat_word]

@[simp] theorem memAt_mem (n : Nat) (a : Word) : MemAt n (.mem a) ↔ a.toNat = n := by simp [MemAt]

/-- The resolver's location for the operand a mode takes from the bytes after PC (R88 to R97). -/
theorem locationOf_resolve {s : State} {m : Mode} {o : Operand}
    (h : operandOf m (fetchByte 1 s) (fetchByte 2 s) = some o) : LocationOf m s (resolve o s) := by
  unfold LocationOf
  rw [byteAt_pc_add, byteAt_pc_add]
  cases m <;> cases h <;> simp only [resolve, memAt_mem]
  case immediate => simp
  case zeroPage => exact toNat_zext16 _
  case zeroPageX | zeroPageY => rw [toNat_zext16, BitVec.toNat_add]
  case absolute => exact toNat_word ..
  case absoluteX | absoluteY => rw [BitVec.toNat_add, toNat_word, toNat_zext16]
  case indexedIndirect => rw [toNat_readZP16, BitVec.toNat_add]
  case indirectIndexed => rw [BitVec.toNat_add, toNat_readZP16, toNat_zext16]

/-! ## Counts -/

/-- What a timed step that completes leaves and returns (R76). -/
theorem stepTimedWith_eq_next_iff (table : Byte → Nat) (gap : Nat) (s t : State) (c : Nat) :
    stepTimedWith table gap s = .next (t, c) ↔ step s = .next t ∧ c = cyclesWith table gap (fetchInstr s) s := by
  unfold stepTimedWith
  cases step s <;> simp [eq_comm]

/-- The count of what is neither a branch nor a gap is its opcode's entry, whatever the state (R100). -/
theorem cyclesWith_eq_table {i : Instr} (hbranch : isBranch i = false) (hgap : i ≠ .gap i.opcode)
    (table : Byte → Nat) (gap : Nat) (s : State) : cyclesWith table gap i s = table i.opcode := by
  cases i
  case bpl | bmi | bvc | bvs | bcc | bcs | bne | beq => cases hbranch
  case gap => exact absurd rfl hgap
  all_goals rfl

/-- A step that completes ran none of the five bytes that always fault (R173). -/
theorem fetchByte_notMem_of_step_eq_next {s t : State} (h : step s = .next t) :
    fetchByte 0 s ∉ [0x02, 0x22, 0x42, 0x62, (0x8B : Byte)] := by
  intro hop
  have hfault := (Proofs.constantWriteIsRaisedByFiveOpcodes s (fetchByte 1 s)).mpr ⟨hop, rfl⟩
  cases h.symm.trans hfault

/-- The count of the instruction at PC, where it is neither a branch nor a gap (R100). -/
theorem cyclesWith_fetchInstr {s : State} (hbranch : isBranch (fetchInstr s) = false)
    (hclass : classOf (fetchByte 0 s) ≠ .gap) (table : Byte → Nat) (gap : Nat) :
    cyclesWith table gap (fetchInstr s) s = table (fetchByte 0 s) := by
  have hop : (fetchInstr s).opcode = fetchByte 0 s := opcode_decodeInstr ..
  have hgap : fetchInstr s ≠ .gap (fetchByte 0 s) := by
    rwa [fetchInstr, ne_eq, decodeInstr_eq_gap_iff, ← classOf_eq_gap_iff]
  rw [← hop] at hgap ⊢
  exact cyclesWith_eq_table hbranch hgap table gap s

end Sys2Proof.Machine

namespace Sys2Proof.Proofs

/-- Settles O24: the location mode by mode, the opcode bytes by evaluation of the mode table. -/
theorem resolverComputesEachMode : Obligations.ResolverComputesEachMode :=
  ⟨fun _ _ _ h => ⟨mode_of_operandOf h, locationOf_resolve h⟩, fun _ _ _ => ⟨rfl, rfl, rfl, rfl⟩,
    fun _ => Mode.len_of_resolver, resolverMode_eq_zeroPageY_iff, resolverMode_eq_absoluteY_iff,
    resolved_accumulator_iff⟩

/-- Settles O59: the count is the opcode's entry, and the bytes whose entry is no count fault. -/
theorem cycleCountIgnoresPageCrossing : Obligations.CycleCountIgnoresPageCrossing := by
  intro s t c h hbranch hclass
  obtain ⟨hstep, hc⟩ := (stepTimedWith_eq_next_iff ..).mp h
  rw [cyclesWith_fetchInstr hbranch hclass] at hc
  exact ⟨hc, hc ▸ cycleTable_bounds _ (fetchByte_notMem_of_step_eq_next hstep)⟩

end Sys2Proof.Proofs
end

section
/-! PROOFS (42_control_flow). Jumps, calls and returns (R101 to R106) and the eight branches (R107 to R115). -/

open Sys2Proof Sys2Proof.Machine Sys2Proof.Claims

namespace Sys2Proof.Machine

/-! ## What each instruction leaves -/

section
variable (s : State)

theorem exec_jmp_abs (w : Word) : exec (.jmp (.abs w)) s = .next (s.setPC w) := rfl
theorem exec_jmp_ind (w : Word) : exec (.jmp (.ind w)) s =
    .next (s.setPC (word (memRead (word (hi w) (lo w + 1)) s) (memRead w s))) := rfl
theorem exec_jsr (w : Word) : exec (.jsr w) s = .next ((push16 (s.pc + 2) s).setPC w) := rfl
theorem exec_rts : exec .rts s = .next ((pull16 s).2.setPC ((pull16 s).1 + 1)) := rfl
theorem exec_rti : exec .rti s = .next (returnFromTrap s) := rfl
theorem exec_brk : exec .brk s = .next (takeTrap (s.pc + 2) s) := rfl

end

/-! ## What each instruction keeps -/

/-- The registers and flags a row of the opcode table does not list hold what they held (R12 to R15, R24 to R30). -/
theorem kept_of_exec {i : Instr} {s t : State} (hwf : i.WellFormed = true) (ht : exec i s = .next t) :
    RegsKept (regsWritten i) s t ∧ FlagsKept (flagsWritten i) s t :=
  have hwrites := exec_instrWrites_of_wellFormed hwf ht
  ⟨hwrites.regsKept, hwrites.flagsKept⟩

/-- An instruction that neither writes a location nor pushes keeps memory. -/
theorem memKept_of_exec {i : Instr} {s t : State} (hw : Instr.writes i = none) (hpush : stackBytes i s = [])
    (ht : exec i s = .next t) : MemKept s t := by
  intro b
  obtain ⟨u, hu, hmem⟩ := exec_of_writes_none hw s
  cases ht.symm.trans hu
  exact hmem b (by simp [hpush])

/-- A write of PC changes nothing else. -/
theorem kept_setPC (v : Word) (s : State) :
    RegsKept [] s (s.setPC v) ∧ FlagsKept [] s (s.setPC v) ∧ MemKept s (s.setPC v) :=
  ⟨fun r _ => by cases r <;> rfl, fun _ _ => rfl, fun b => memRead_setPC b v s⟩

/-! ## Words -/

/-- The address of the last byte of a JSR, and of the byte past the padding byte of a BRK, as a number. -/
theorem toNat_pc_add_two (s : State) : (s.pc + 2).toNat = (s.pc.toNat + 2) % 2 ^ 16 := BitVec.toNat_add ..

theorem toNat_hi (w : Word) : (hi w).toNat = w.toNat / 256 := by
  have := w.isLt
  rw [hi_eq_ofNat, BitVec.toNat_ofNat]
  omega

/-- Two addresses have the same `hi` exactly when they lie in the same page. -/
theorem hi_inj_iff (v w : Word) : hi v = hi w ↔ v.toNat / 256 = w.toNat / 256 := by
  rw [← BitVec.toNat_inj, toNat_hi, toNat_hi]

/-- The next address of the same page (R102). -/
theorem toNat_next_in_page (w : Word) :
    (word (hi w) (lo w + 1)).toNat = w.toNat / 256 * 256 + (w.toNat + 1) % 256 := by
  have hone : (1 : Byte).toNat = 1 := rfl
  rw [toNat_word, toNat_hi, BitVec.toNat_add, lo_eq_ofNat, BitVec.toNat_ofNat, hone]
  omega

/-- The target of a branch as the signed sum of R107. -/
theorem toNat_branchTarget (r : Byte) (s : State) :
    (branchTarget r s).toNat = ((((s.pc.toNat + 2) % 2 ^ 16 : Nat) + r.toInt) % 2 ^ 16).toNat := by
  have hr : (sext16 r).toInt = r.toInt := BitVec.toInt_signExtend_of_le (by decide)
  have hw := BitVec.toInt_eq_toNat_cond (sext16 r)
  rw [branchTarget, BitVec.toNat_add, toNat_pc_add_two, ← hr, hw]
  split <;> omega

/-! ## Branches -/

/-- An instruction that runs as the common rule of the branches (R107) is a branch in the sense of the claims. -/
theorem branchIs_of_branchOn {mk : Byte → Instr} {op : Byte} {f : Flag} {b : Bool}
    (hencode : ∀ r, encode (mk r) = [op, r]) (hexec : ∀ r s, exec (mk r) s = branchOn f b r s)
    (hcycles : ∀ r s, cyclesOf (mk r) s = branchCycles f b r s) : BranchIs mk op f b := by
  intro r s
  refine ⟨hencode r, ⟨_, hexec r s, ?_, kept_setPC _ s⟩, ?_⟩
  · rw [State.setPC_pc, apply_ite BitVec.toNat, toNat_branchTarget, toNat_pc_add_two]
  · simp only [hcycles, branchCycles, hi_inj_iff, toNat_branchTarget, toNat_pc_add_two]

/-! ## The status byte BRK pushes and RTI pulls -/

/-- The flags of P after a pull: B cleared, U set, the others from the byte pulled (R105, R132). -/
theorem getFlag_pulledStatus (f : Flag) (v : Byte) :
    getFlag f (statusValue (pulledStatus v)) = if f = .B then false else if f = .U then true else getFlag f v := by
  cases f <;> simp [getFlag, statusValue, unusedMask, pulledStatus, breakMask, Flag.bit]

theorem flags_of_pulledStatus {t : State} {v : Byte} (h : t.p = statusValue (pulledStatus v)) :
    getFlag .B t.p = false ∧ getFlag .U t.p = true ∧ ∀ f, f ≠ .B → f ≠ .U → getFlag f t.p = getFlag f v := by
  rw [h]
  refine ⟨getFlag_pulledStatus .B v, getFlag_pulledStatus .U v, fun f hB hU => ?_⟩
  rw [getFlag_pulledStatus, if_neg hB, if_neg hU]

/-- The status BRK pushes has the flags of P but for B and U (R106). -/
theorem getFlag_pushedStatus {f : Flag} (p : Byte) (hB : f ≠ .B) (hU : f ≠ .U) :
    getFlag f (p ||| (breakMask ||| unusedMask)) = getFlag f p := by
  cases f
  case B => exact absurd rfl hB
  case U => exact absurd rfl hU
  all_goals simp [getFlag, unusedMask, breakMask, Flag.bit]

theorem pushedStatus_eq_ofNat (p : Byte) :
    p ||| (breakMask ||| unusedMask) = BitVec.ofNat 8 (p.toNat ||| 0x30) := by
  rw [BitVec.ofNat_or, BitVec.ofNat_toNat, BitVec.setWidth_eq]
  rfl

/-! ## A return undoes what the call left on the stack -/

/-- SP after two pushes, seen from the two bytes pushed. -/
theorem sp_after_two_pushes : ∀ p : Byte, p - 1 - 1 + 1 = p - 1 ∧ p - 1 - 1 + 2 = p ∧ p - 1 ≠ p := by decide

/-- SP after three pushes, seen from the three bytes pushed. -/
theorem sp_after_three_pushes : ∀ p : Byte,
    p - 1 - 1 - 1 + 1 = p - 2 ∧ p - 1 - 1 - 1 + 2 = p - 1 ∧ p - 1 - 1 - 1 + 3 = p ∧
    p - 2 ≠ p ∧ p - 2 ≠ p - 1 ∧ p - 1 ≠ p := by decide

/-- A call and a return that write no register but SP, and leave SP as it was, leave every register as it was. -/
theorem regsKept_of_return {s t u : State} (hcall : RegsKept [.SP] s t) (hreturn : RegsKept [.SP] t u)
    (hsp : u.sp = s.sp) : RegsKept [] s u := by
  intro r _
  by_cases hr : r = .SP
  · rw [hr]
    exact hsp
  · have hr : r ∉ [Reg.SP] := by simpa using hr
    exact (hreturn r hr).trans (hcall r hr)

/-- The word pulled does not depend on PC. -/
theorem pull16_setPC_fst (v : Word) (s : State) : (pull16 (s.setPC v)).1 = (pull16 s).1 := rfl

/-- Pulling a word after pushing it gives the word and the stack pointer back (R43, R103, R104). -/
theorem pull16_push16 (w : Word) (s : State) : (pull16 (push16 w s)).1 = w ∧ (pull16 (push16 w s)).2.sp = s.sp := by
  obtain ⟨hlow, hhigh, hne⟩ := sp_after_two_pushes s.sp
  constructor
  · rw [pull16_fst, push16_sp, hlow, hhigh, memRead_push16, memRead_push16, if_pos rfl, if_neg (by rwa [stackAddr_inj]),
      if_pos rfl, word_hi_lo]
  · simp

/-- The return from a trap finds the return address the trap left (R105, R106). -/
theorem returnFromTrap_takeTrap_pc (r : Word) (s : State) : (returnFromTrap (takeTrap r s)).pc = r := by
  obtain ⟨-, hlow, hhigh, -, -, hne⟩ := sp_after_three_pushes s.sp
  rw [returnFromTrap_pc, takeTrap_sp, hlow, hhigh, memRead_takeTrap, memRead_takeTrap, if_pos rfl,
    if_neg (by rwa [stackAddr_inj]), if_pos rfl, word_hi_lo]

/-- The return from a trap pulls the status the trap pushed (R105, R106). -/
theorem returnFromTrap_takeTrap_p (r : Word) (s : State) :
    (returnFromTrap (takeTrap r s)).p = statusValue (pulledStatus (s.p ||| (breakMask ||| unusedMask))) := by
  obtain ⟨hstatus, -, -, hhigh, hlow, -⟩ := sp_after_three_pushes s.sp
  rw [returnFromTrap_p, takeTrap_sp, hstatus, memRead_takeTrap, if_neg (by rwa [stackAddr_inj]),
    if_neg (by rwa [stackAddr_inj]), if_pos rfl]

theorem returnFromTrap_takeTrap_sp (r : Word) (s : State) : (returnFromTrap (takeTrap r s)).sp = s.sp := by simp

end Sys2Proof.Machine

namespace Sys2Proof.Proofs

/-- Settles O45: the indirect pointer's second byte is at the next address of its page. -/
theorem jumpsLoadPC : Obligations.JumpsLoadPC := by
  intro w s
  have habs : cycleTable 0x4C = 3 := by decide
  have hind : cycleTable 0x6C = 5 := by decide
  refine ⟨rfl, habs, ⟨_, exec_jmp_abs s w, rfl, kept_setPC w s⟩, rfl, hind, ⟨_, exec_jmp_ind s w, kept_setPC _ s, ?_⟩⟩
  rw [State.setPC_pc, toNat_word, ← toNat_next_in_page, byteAt_toNat, byteAt_toNat]

/-- Settles O46, from the read after a 16-bit push. -/
theorem jsrPushesItsLastByte : Obligations.JsrPushesItsLastByte := by
  intro w s
  obtain ⟨hregs, hflags⟩ := kept_of_exec rfl (exec_jsr s w)
  have hcycles : cycleTable 0x20 = 6 := by decide
  refine ⟨rfl, hcycles, _, exec_jsr s w, rfl, ?_, hregs, hflags, fun b => ?_⟩
  · rw [State.setPC_sp, push16_sp]
    bv_omega
  · rw [memRead_setPC, memRead_push16, hi_eq_ofNat, lo_eq_ofNat, toNat_pc_add_two]

/-- Settles O47, from the word a 16-bit pull gives. -/
theorem rtsPullsAndAddsOne : Obligations.RtsPullsAndAddsOne := by
  refine ⟨rfl, fun s => ⟨⟨_, exec_rts s, ?_, ?_, ?_⟩, rfl⟩⟩
  · rw [State.setPC_pc, BitVec.toNat_add, pull16_fst, toNat_word]
    rfl
  · rw [State.setPC_sp, pull16_sp]
    bv_omega
  · obtain ⟨hregs, hflags⟩ := kept_of_exec rfl (exec_rts s)
    exact ⟨hregs, hflags, memKept_of_exec rfl rfl (exec_rts s)⟩

/-- Settles O48, from the read and the PC after the trap. -/
theorem brkTakesTheTrap : Obligations.BrkTakesTheTrap := by
  refine ⟨rfl, fun s => ⟨⟨_, exec_brk s, ?_⟩, rfl⟩⟩
  obtain ⟨hregs, hflags⟩ := kept_of_exec rfl (exec_brk s)
  refine ⟨?_, ?_, ?_, hregs, hflags, fun b => ?_⟩
  · rw [takeTrap_pc, read16, toNat_word]
    rfl
  · rw [takeTrap_sp]
    bv_omega
  · rw [takeTrap_p, getFlag_setFlag]
    rfl
  · rw [memRead_takeTrap, hi_eq_ofNat, lo_eq_ofNat, toNat_pc_add_two, pushedStatus_eq_ofNat]

/-- Settles O49, from the PC and the status after the return from a trap. -/
theorem rtiRestoresStatusAndPC : Obligations.RtiRestoresStatusAndPC := by
  refine ⟨rfl, fun s => ⟨⟨_, exec_rti s, ?_⟩, rfl⟩⟩
  obtain ⟨hregs, -⟩ := kept_of_exec rfl (exec_rti s)
  obtain ⟨hB, hU, hflags⟩ := flags_of_pulledStatus (returnFromTrap_p s)
  refine ⟨?_, ?_, hB, hU, hflags, hregs, memKept_of_exec rfl rfl (exec_rti s)⟩
  · rw [returnFromTrap_pc, toNat_word]
  · rw [returnFromTrap_sp]
    bv_omega

/-- Settles O50: the eight run as the common rule, each with its flag. -/
theorem branchesFollowTheirFlag : Obligations.BranchesFollowTheirFlag := by
  refine ⟨?_, ?_, ?_, ?_, ?_, ?_, ?_, ?_⟩
  all_goals exact branchIs_of_branchOn (fun _ => rfl) (fun _ _ => rfl) fun _ _ => rfl

/-- Settles O51: the pull gives back the address JSR pushed, its last byte's, and the stack pointer. -/
theorem rtsReturnsPastTheJsr : Obligations.RtsReturnsPastTheJsr := by
  intro w s
  refine ⟨_, exec_jsr s w, _, exec_rts _, ?_⟩
  obtain ⟨hcall, hcallFlags⟩ := kept_of_exec rfl (exec_jsr s w)
  obtain ⟨hreturn, hreturnFlags⟩ := kept_of_exec rfl (exec_rts ((push16 (s.pc + 2) s).setPC w))
  obtain ⟨hpc, hsp⟩ := pull16_push16 (s.pc + 2) s
  refine ⟨?_, regsKept_of_return hcall hreturn hsp, fun f hf => (hreturnFlags f hf).trans (hcallFlags f hf)⟩
  rw [PcPast, State.setPC_pc, pull16_setPC_fst, hpc]
  bv_omega

/-- Settles O52: RTI finds the address and the status BRK pushed. -/
theorem rtiReturnsPastTheBrk : Obligations.RtiReturnsPastTheBrk := by
  intro s
  refine ⟨_, exec_brk s, _, exec_rti _, ?_⟩
  obtain ⟨hcall, -⟩ := kept_of_exec rfl (exec_brk s)
  obtain ⟨hreturn, -⟩ := kept_of_exec rfl (exec_rti (takeTrap (s.pc + 2) s))
  obtain ⟨hB, hU, hflags⟩ := flags_of_pulledStatus (returnFromTrap_takeTrap_p (s.pc + 2) s)
  refine ⟨?_, regsKept_of_return hcall hreturn (returnFromTrap_takeTrap_sp _ s), fun f hf => ?_, hB, hU⟩
  · rw [PcPast, returnFromTrap_takeTrap_pc, toNat_pc_add_two]
  · simp only [List.mem_cons, List.not_mem_nil, or_false, not_or] at hf
    obtain ⟨hfB, hfU⟩ := hf
    exact (hflags f hfB hfU).trans (getFlag_pushedStatus _ hfB hfU)

end Sys2Proof.Proofs
end

section
/-! PROOFS (43_implied). Transfers, flag instructions and index counting (R116 to R128, R133 to R136), pushes and pulls
(R129 to R132), and the no-ops NOP and NOP* (R137, R138). -/

open Sys2Proof Sys2Proof.Machine Sys2Proof.Claims

namespace Sys2Proof

/-! ## The inert rows -/

/-- What an operand is filled with does not depend on the bytes it held. -/
theorem map_refill_operandOf (m : Mode) (c1 c2 b1 b2 : Byte) :
    (operandOf m c1 c2).map (·.refill b1 b2) = operandOf m b1 b2 := by
  cases m <;> rfl

/-- The operand a mode takes has that mode; relative and indirect, which only direct opcodes have, take none (R61). -/
theorem argMode_operandOf {m : Mode} (h : m ∉ [Mode.relative, .indirect]) (b1 b2 : Byte) :
    argMode (operandOf m b1 b2) = m := by
  cases m
  case relative | indirect => exact absurd (by decide) h
  all_goals rfl

theorem inertRows_modes : ∀ r ∈ inertRows, r.2 ∉ [Mode.relative, .indirect] := by decide

/-- An inert row decodes to NOP* with the operand its mode takes from the bytes that follow (R69). -/
theorem decodeInstr_of_mem_inertRows {op : Byte} {m : Mode} (h : (op, m) ∈ inertRows) (b1 b2 : Byte) :
    decodeInstr op b1 b2 = .nopInert op (operandOf m b1 b2) := by
  rw [decodeInstr_eq_refill, decodeInstr_inertRows _ h, ← map_refill_operandOf m 0 0 b1 b2]
  rfl

/-- The default counts of the inert rows (R138, R199). -/
theorem cycleTable_inertRows : ∀ r ∈ inertRows, cycleTable r.1 =
    if r.2 ∈ [.implied, .immediate] then 2 else if r.2 = .zeroPage then 3 else 4 := by decide

/-- The inert class is the 27 rows of R69. -/
theorem classOf_eq_inert_iff : ∀ op : Byte, classOf op = .inert ↔ op ∈ inertRows.map Prod.fst := by decide

end Sys2Proof

namespace Sys2Proof.Machine

/-! ## One-byte instructions -/

/-- An implied instruction from its byte, its count, the state it leaves and what the claim says of that state. -/
theorem impliedIs_of_exec {i : Instr} {op : Byte} {cycles : Nat} {post : State → State → Prop} {result : State → State}
    (hencode : encode i = [op]) (hcycles : ∀ s, cyclesOf i s = cycles) (hexec : ∀ s, exec i s = .next (result s))
    (hpost : ∀ s, post s (result s)) : ImpliedIs i op cycles post :=
  ⟨hencode, fun s => ⟨⟨result s, hexec s, hpost s⟩, hcycles s⟩⟩

section
variable (s : State)

theorem exec_txs : exec .txs s = .next ((s.advance 1).setSP s.x) := rfl
theorem exec_pha : exec .pha s = .next (push s.a (s.advance 1)) := rfl
theorem exec_php : exec .php s = .next (push (s.p ||| breakMask) (s.advance 1)) := rfl
theorem exec_pla : exec .pla s = .next ((pull (s.advance 1)).2.setA (pull (s.advance 1)).1) := rfl
theorem exec_plp : exec .plp s = .next (pullStatus (s.advance 1)) := rfl
theorem exec_nopInert (op : Byte) (arg : Option Operand) :
    exec (.nopInert op arg) s = .next (s.advance (argMode arg).len) := rfl
theorem cyclesOf_nopInert (op : Byte) (arg : Option Operand) : cyclesOf (.nopInert op arg) s = cycleTable op := rfl

end

/-! ## Bytes as numbers -/

/-- Counting down is adding 255, modulo 256. -/
theorem sub_one_eq_ofNat (v : Byte) : v - 1 = BitVec.ofNat 8 (v.toNat + 255) := by
  bv_omega

theorem add_one_eq_ofNat (v : Byte) : v + 1 = BitVec.ofNat 8 (v.toNat + 1) := by
  bv_omega

/-- The status PHP pushes (R130). -/
theorem or_breakMask_eq_ofNat (p : Byte) : p ||| breakMask = BitVec.ofNat 8 (p.toNat ||| 0x10) := by
  rw [BitVec.ofNat_or, BitVec.ofNat_toNat, BitVec.setWidth_eq]
  rfl

/-! ## One flag, one push -/

/-- The common shape of the flag instructions changes its flag alone (R122 to R128). U, which no setter clears (R23),
is left out. -/
theorem getFlag_and_onlyFlags_setFlag {f : Flag} (hU : f ≠ .U) (b : Bool) (s : State) :
    getFlag f ((s.advance 1).setFlag f b).p = b ∧ OnlyFlags 1 [f] s ((s.advance 1).setFlag f b) := by
  have hwrites : PlainWrites [] [f] s ((s.advance 1).setFlag f b) :=
    .setFlag (List.Subset.refl _) b (.advance 1 .refl)
  refine ⟨?_, pcPast_advance 1 s, hwrites.regsKept, hwrites.flagsKept, fun _ => rfl⟩
  rw [State.setFlag_p, getFlag_setFlag, if_pos rfl, beq_false_of_ne hU, Bool.or_false]

/-- A push past a one-byte opcode: one byte stored, SP down by one, no other register and no flag written (R46). -/
theorem push_advance_effect (v : Byte) (s : State) :
    MemStored (stackAddr s.sp) v s (push v (s.advance 1)) ∧
    (push v (s.advance 1)).sp.toNat = (s.sp.toNat + 255) % 256 ∧ PcPast 1 s (push v (s.advance 1)) ∧
    RegsKept [.SP] s (push v (s.advance 1)) ∧ FlagsKept [] s (push v (s.advance 1)) := by
  have hwrites : PlainWrites [.SP] [] s (push v (s.advance 1)) := .push (List.Subset.refl _) v (.advance 1 .refl)
  refine ⟨memRead_push v (s.advance 1), ?_, pcPast_advance 1 s, hwrites.regsKept, hwrites.flagsKept⟩
  rw [push_sp, State.advance_sp, sub_one_eq_ofNat, BitVec.toNat_ofNat]

end Sys2Proof.Machine

namespace Sys2Proof.Proofs

/-- Settles O37: five of the six are loads through a register's port; TXS writes SP, which has no flags. -/
theorem transfersCopyARegister : Obligations.TransfersCopyARegister := by
  refine ⟨?tax, ?txa, ?tay, ?tya, ?tsx, ?txs⟩
  case tax => exact impliedIs_of_exec rfl (fun _ => rfl) (fun _ => rfl) fun s => loadsReg_setX 1 s.a s
  case txa => exact impliedIs_of_exec rfl (fun _ => rfl) (fun _ => rfl) fun s => loadsReg_setA 1 s.x s
  case tay => exact impliedIs_of_exec rfl (fun _ => rfl) (fun _ => rfl) fun s => loadsReg_setY 1 s.a s
  case tya => exact impliedIs_of_exec rfl (fun _ => rfl) (fun _ => rfl) fun s => loadsReg_setA 1 s.y s
  case tsx => exact impliedIs_of_exec rfl (fun _ => rfl) (fun _ => rfl) fun s => loadsReg_setX 1 s.sp s
  case txs =>
    refine impliedIs_of_exec rfl (fun _ => rfl) exec_txs fun s => ?_
    obtain ⟨hregs, hflags⟩ := kept_of_exec rfl (exec_txs s)
    exact ⟨rfl, pcPast_advance 1 s, hregs, hflags, memKept_of_exec rfl rfl (exec_txs s)⟩

/-- Settles O38: the seven are one shape, each with its flag and value. -/
theorem flagInstructionsWriteOneFlag : Obligations.FlagInstructionsWriteOneFlag := by
  refine ⟨?_, ?_, ?_, ?_, ?_, ?_, ?_⟩
  all_goals
    exact impliedIs_of_exec rfl (fun _ => rfl) (fun _ => rfl) (getFlag_and_onlyFlags_setFlag (by decide) _)

/-- Settles O39: each is a load of the counted register through its port. -/
theorem indexCountingWraps : Obligations.IndexCountingWraps := by
  refine ⟨?inx, ?iny, ?dex, ?dey⟩ <;> refine impliedIs_of_exec rfl (fun _ => rfl) (fun _ => rfl) fun s => ?_
  case inx => exact add_one_eq_ofNat s.x ▸ loadsReg_setX 1 (s.x + 1) s
  case iny => exact add_one_eq_ofNat s.y ▸ loadsReg_setY 1 (s.y + 1) s
  case dex => exact sub_one_eq_ofNat s.x ▸ loadsReg_setX 1 (s.x - 1) s
  case dey => exact sub_one_eq_ofNat s.y ▸ loadsReg_setY 1 (s.y - 1) s

/-- Settles O40: both are one push, of A or of P with Break set. -/
theorem pushesStoreAtTheStackPointer : Obligations.PushesStoreAtTheStackPointer := by
  constructor
  · exact impliedIs_of_exec rfl (fun _ => rfl) exec_pha fun s => push_advance_effect s.a s
  · refine impliedIs_of_exec rfl (fun _ => rfl) exec_php fun s => ?_
    rw [← or_breakMask_eq_ofNat]
    exact push_advance_effect (s.p ||| breakMask) s

/-- Settles O41: the byte of one pull goes to A through its port, or to P with Break clear and Unused set. -/
theorem pullsReadAboveTheStackPointer : Obligations.PullsReadAboveTheStackPointer := by
  have hsp (s : State) : (s.sp + 1).toNat = (s.sp.toNat + 1) % 256 := BitVec.toNat_add ..
  constructor
  · refine impliedIs_of_exec rfl (fun _ => rfl) exec_pla fun s => ?_
    obtain ⟨hregs, hflags⟩ := kept_of_exec rfl (exec_pla s)
    have hmem := memKept_of_exec rfl rfl (exec_pla s)
    exact ⟨⟨hsp s, pcPast_advance 1 s, hmem⟩, rfl, znOf_of_setZN rfl, hregs, hflags⟩
  · refine impliedIs_of_exec rfl (fun _ => rfl) exec_plp fun s => ?_
    obtain ⟨hregs, -⟩ := kept_of_exec rfl (exec_plp s)
    have hmem := memKept_of_exec rfl rfl (exec_plp s)
    exact ⟨⟨hsp s, pcPast_advance 1 s, hmem⟩, hregs, flags_of_pulledStatus (pullStatus_p (s.advance 1))⟩

/-- Settles O42: one advance of PC; the rows, their counts and their class by evaluation of the tables. -/
theorem nopsOnlyAdvancePC : Obligations.NopsOnlyAdvancePC := by
  refine ⟨?nop, fun op arg s => ?effect, fun op m hrow b1 b2 s => ?rows, classOf_eq_inert_iff⟩
  case nop => exact impliedIs_of_exec rfl (fun _ => rfl) (fun _ => rfl) (onlyFlags_advance 1)
  case effect => exact ⟨_, exec_nopInert s op arg, onlyFlags_advance _ s⟩
  case rows =>
    have hdecode := decodeInstr_of_mem_inertRows hrow b1 b2
    refine ⟨hdecode, argMode_operandOf (inertRows_modes _ hrow) b1 b2, ?_⟩
    rw [hdecode, cyclesOf_nopInert]
    exact cycleTable_inertRows (op, m) hrow

end Sys2Proof.Proofs
end

section
/-! PROOFS (44_group01). Loads and logical operations (R142 to R144, R148, R155, R160), ADC and SBC (R145, R146) on
unbounded numbers, the compares (R149, R161, R162), the pure stores (R147, R154, R159, R163, R164), and the opcode rows
of each. -/

open Sys2Proof Sys2Proof.Machine Sys2Proof.Claims

namespace Sys2Proof

/-! ## The opcode rows of an instruction -/

/-- One operand of each mode the resolver serves, its bytes zero. -/
def zeroOperands : List Operand :=
  [.acc, .imm 0, .zp 0, .zpx 0, .zpy 0, .abs 0, .absx 0, .absy 0, .indx 0, .indy 0]

theorem Operand.refill_zero_mem (o : Operand) : o.refill 0 0 ∈ zeroOperands := by
  cases o <;> simp [zeroOperands, Operand.refill, operandOf, Operand.mode, word]

/-- The opcode byte and mode of every well-formed form of an instruction. -/
def formRows (mk : Operand → Instr) : List (Byte × Mode) :=
  (zeroOperands.filter fun z => (mk z).WellFormed).map fun z => ((mk z).opcode, z.mode)

/-- Neither the opcode byte nor the mode depends on the operand's bytes, so the forms with zero bytes give every row. -/
theorem mem_formRows_iff {mk : Operand → Instr} (hmk : ∀ o, (mk o).refill 0 0 = mk (o.refill 0 0)) (op : Byte)
    (m : Mode) : (op, m) ∈ formRows mk ↔ ∃ o, o.mode = m ∧ (mk o).WellFormed = true ∧ (mk o).opcode = op := by
  simp only [formRows, List.mem_map, List.mem_filter, Prod.mk.injEq]
  constructor
  · rintro ⟨z, ⟨-, hwf⟩, hop, hm⟩
    exact ⟨z, hm, hwf, hop⟩
  · rintro ⟨o, hm, hwf, hop⟩
    refine ⟨o.refill 0 0, ⟨o.refill_zero_mem, ?_⟩, ?_, (Operand.mode_refill o 0 0).trans hm⟩
    · rw [← hmk, Instr.wellFormed_refill, hwf]
    · rw [← hmk, Instr.opcode_refill, hop]

/-- A list of rows is that of an instruction when it lists the same rows in some order. -/
theorem opcodesAre_of_perm {mk : Operand → Instr} {rows : List (Byte × Mode)}
    (hmk : ∀ o, (mk o).refill 0 0 = mk (o.refill 0 0)) (h : rows.Perm (formRows mk)) : OpcodesAre mk rows :=
  fun op m => h.mem_iff.trans (mem_formRows_iff hmk op m)

end Sys2Proof

namespace Sys2Proof.Machine

/-! ## The ALU cores on unbounded numbers -/

theorem aluAdd_r_toNat (a m : Byte) (c : Bool) :
    (aluAdd a m c).r.toNat = (a.toNat + m.toNat + c.toNat) % 256 := BitVec.toNat_ofNat ..

/-- The signed overflow of `aluAdd_v`, told by the signs of operands and result (R139). -/
theorem aluAdd_v_eq_signs (a m : Byte) (c : Bool) :
    (aluAdd a m c).v = decide ((128 ≤ a.toNat ↔ 128 ≤ m.toNat) ∧
      ¬(128 ≤ m.toNat ↔ 128 ≤ (a.toNat + m.toNat + c.toNat) % 256)) := by
  have hc := Bool.toNat_le c
  have ha := toInt_cases a
  have hm := toInt_cases m
  rw [aluAdd_v, decide_eq_decide]
  omega

theorem aluSub_r_toNat (a m : Byte) (c : Bool) :
    ((aluSub a m c).r.toNat : Int) = ((a.toNat : Int) - m.toNat - (1 - c.toNat)) % 256 := by
  have hr : (aluSub a m c).r.toNat = (((a.toNat : Int) - m.toNat - (1 - c.toNat)) % 256).toNat := BitVec.toNat_ofInt ..
  omega

/-- The signed overflow of `aluSub_v`, told by the signs of operands and result (R140). -/
theorem aluSub_v_eq_signs (a m : Byte) (c : Bool) :
    (aluSub a m c).v = decide (¬(128 ≤ a.toNat ↔ 128 ≤ m.toNat) ∧
      ¬(128 ≤ a.toNat ↔ 128 ≤ ((a.toNat : Int) - m.toNat - (1 - c.toNat)) % 256)) := by
  have hc := Bool.toNat_le c
  have ha := toInt_cases a
  have hm := toInt_cases m
  rw [aluSub_v, decide_eq_decide]
  omega

/-- Subtraction is addition of the complement, in result, carry and overflow (R140). -/
theorem aluSub_eq_aluAdd_not (a m : Byte) (c : Bool) : aluSub a m c = aluAdd a (~~~m) c := by
  have hnot : (~~~m).toNat = 255 - m.toNat := BitVec.toNat_not
  have hm := m.isLt
  have hr : (aluSub a m c).r = (aluAdd a (~~~m) c).r := by
    have hsub := aluSub_r_toNat a m c
    have hadd := aluAdd_r_toNat a (~~~m) c
    exact BitVec.eq_of_toNat_eq (by omega)
  have hc : (aluSub a m c).c = (aluAdd a (~~~m) c).c := by
    simp only [aluSub, aluAdd, decide_eq_decide]
    omega
  have hv : (aluSub a m c).v = (aluAdd a (~~~m) c).v := by
    rw [aluSub_v_eq_signs, aluAdd_v_eq_signs, decide_eq_decide]
    omega
  exact (AluOut.mk.injEq ..).mpr ⟨hr, hc, hv⟩

/-! ## What each instruction leaves -/

section
variable (o : Operand) (s : State)

theorem exec_adc : exec (.adc o) s =
    .next ((s.advance o.mode.len).setAlu (aluAdd s.a (operandValue o s) (getFlag .C s.p))) := rfl
theorem exec_sbc : exec (.sbc o) s =
    .next ((s.advance o.mode.len).setAlu (aluSub s.a (operandValue o s) (getFlag .C s.p))) := rfl
theorem exec_cmp : exec (.cmp o) s =
    .next ((s.advance o.mode.len).updP (setCmp s.a (operandValue o s))) := rfl
theorem exec_cpx : exec (.cpx o) s =
    .next ((s.advance o.mode.len).updP (setCmp s.x (operandValue o s))) := rfl
theorem exec_cpy : exec (.cpy o) s =
    .next ((s.advance o.mode.len).updP (setCmp s.y (operandValue o s))) := rfl

end

/-! ## ADC and SBC -/

theorem getFlag_C_setAlu (r : AluOut) (s : State) : getFlag .C (s.setAlu r).p = r.c := by
  simp [State.setAlu, getFlag_setZN, getFlag_setFlag]

/-- The writes of ADC and SBC after the advance of PC keep all but A, C, V, Z and N. -/
theorem setAlu_advance_kept (n : Nat) (r : AluOut) (s : State) :
    ZNOf r.r ((s.advance n).setAlu r) ∧ PcPast n s ((s.advance n).setAlu r) ∧
    RegsKept [.A] s ((s.advance n).setAlu r) ∧ FlagsKept [.C, .V, .Z, .N] s ((s.advance n).setAlu r) ∧
    MemKept s ((s.advance n).setAlu r) := by
  have hwrites : InstrWrites [.A] [.C, .V, .Z, .N] s ((s.advance n).setAlu r) :=
    .setAlu (List.Subset.refl _) (List.Subset.refl _) r (.advance n .refl)
  exact ⟨znOf_of_setZN rfl, pcPast_advance n s, hwrites.regsKept, hwrites.flagsKept, fun _ => rfl⟩

/-! ## Compares -/

theorem ofInt_toNat_sub (a m : Byte) : BitVec.ofInt 8 ((a.toNat : Int) - m.toNat) = a - m := by
  rw [Int.sub_eq_add_neg, BitVec.ofInt_add, BitVec.ofInt_neg, BitVec.ofInt_natCast, BitVec.ofInt_natCast,
    BitVec.ofNat_toNat, BitVec.ofNat_toNat, BitVec.setWidth_eq, BitVec.setWidth_eq, ← sub_eq_add_neg]

/-- The flags of the compare core, Z and N of its difference modulo 256 (R141). -/
theorem compareFlags_of_setCmp {a m p : Byte} {t : State} (h : t.p = setCmp a m p) : CompareFlags a m t := by
  rw [CompareFlags, h, getFlag_setCmp, getFlag_setCmp, getFlag_setCmp, ofInt_toNat_sub]
  refine ⟨rfl, ?z, ?n⟩
  case z =>
    show decide (a - m = 0) = _
    rw [decide_eq_decide, sub_eq_zero]
  case n =>
    show (a - m).getLsbD 7 = _
    rw [getLsbD_seven, BitVec.toNat_sub, decide_eq_decide]
    omega

/-- A compare of register `r` writes the flags of its core and keeps everything else. -/
theorem compareIs_of_exec {mk : Operand → Instr} {r : Reg}
    (hexec : ∀ o s, exec (mk o) s = .next ((s.advance o.mode.len).updP (setCmp (getReg r s) (operandValue o s)))) :
    CompareIs mk r := by
  intro o s
  refine ⟨_, hexec o s, compareFlags_of_setCmp rfl, ?_⟩
  have hwrites : PlainWrites [] [.C, .Z, .N] s
      ((s.advance o.mode.len).updP (setCmp (getReg r s) (operandValue o s))) :=
    .setCZN (List.Subset.refl _) _ _ (.advance _ .refl)
  exact ⟨pcPast_advance _ s, hwrites.regsKept, hwrites.flagsKept, fun _ => rfl⟩

/-! ## Stores -/

/-- A pure store writes its operand's location, and that write completes or faults by the location's rule (R40, R42). -/
theorem storeIs_of_exec {mk : Operand → Instr} {v : State → Byte} (hexec : ∀ o s, exec (mk o) s = storeOp o (v s) s) :
    StoreIs mk v := by
  intro o s
  simp only [Gives, hexec, storeOp]
  refine ⟨fun a hl ha => ?_, fun a hl ha => ?_, fun i hl => ?_⟩ <;> rw [hl]
  · exact ⟨_, memWrite_of_lt (v s) _ ha, memStored_ramWrite ha (v s) (s.advance o.mode.len), pcPast_advance _ s,
      fun r _ => by cases r <;> rfl, fun _ _ => rfl⟩
  · exact memWrite_of_ge (v s) _ ha
  · rfl

end Sys2Proof.Machine

namespace Sys2Proof.Proofs

/-- Settles O28: the addition core, then the writes ADC and SBC share. -/
theorem adcAddsWithCarry : Obligations.AdcAddsWithCarry := by
  refine ⟨fun o s => ⟨_, exec_adc o s, aluAdd_r_toNat _ _ _, getFlag_C_setAlu _ _, ?_, setAlu_advance_kept _ _ s⟩,
    opcodesAre_of_perm (fun _ => rfl) (by decide)⟩
  rw [getFlag_V_setAlu, aluAdd_v_eq_signs]

/-- Settles O29: the subtraction core, then the writes ADC and SBC share. -/
theorem sbcSubtractsWithBorrow : Obligations.SbcSubtractsWithBorrow := by
  refine ⟨fun o s => ⟨_, exec_sbc o s, aluSub_r_toNat _ _ _, getFlag_C_setAlu _ _, ?_, setAlu_advance_kept _ _ s⟩,
    opcodesAre_of_perm (fun _ => rfl) (by decide)⟩
  rw [getFlag_V_setAlu, aluSub_v_eq_signs]

/-- Settles O31: the two cores agree, and both instructions make the same writes. -/
theorem sbcIsAdcOfTheComplement : Obligations.SbcIsAdcOfTheComplement := by
  intro n s
  rw [exec_sbc, exec_adc, aluSub_eq_aluAdd_not]
  rfl

/-- Settles O32: the three are one shape, each with its register. -/
theorem comparesSetOnlyFlags : Obligations.ComparesSetOnlyFlags :=
  ⟨compareIs_of_exec exec_cmp, compareIs_of_exec exec_cpx, compareIs_of_exec exec_cpy,
    opcodesAre_of_perm (fun _ => rfl) (by decide), opcodesAre_of_perm (fun _ => rfl) (by decide),
    opcodesAre_of_perm (fun _ => rfl) (by decide)⟩

/-- Settles O33: the four are one shape, each with the byte it stores. -/
theorem storesWriteOneByte : Obligations.StoresWriteOneByte :=
  ⟨storeIs_of_exec exec_sta, storeIs_of_exec exec_stx, storeIs_of_exec exec_sty, storeIs_of_exec exec_sax,
    opcodesAre_of_perm (fun _ => rfl) (by decide), opcodesAre_of_perm (fun _ => rfl) (by decide),
    opcodesAre_of_perm (fun _ => rfl) (by decide), opcodesAre_of_perm (fun _ => rfl) (by decide)⟩

/-- Settles O26: each is a load of A through its port. -/
theorem logicalOperationsWriteA : Obligations.LogicalOperationsWriteA :=
  ⟨fun o s => ⟨⟨_, rfl, loadsReg_setA o.mode.len (s.a ||| operandValue o s) s⟩,
      ⟨_, rfl, loadsReg_setA o.mode.len (s.a &&& operandValue o s) s⟩,
      ⟨_, rfl, loadsReg_setA o.mode.len (s.a ^^^ operandValue o s) s⟩⟩,
    opcodesAre_of_perm (fun _ => rfl) (by decide), opcodesAre_of_perm (fun _ => rfl) (by decide),
    opcodesAre_of_perm (fun _ => rfl) (by decide)⟩

/-- Settles O27: each is a load of its register through its port. -/
theorem loadsWriteTheirRegister : Obligations.LoadsWriteTheirRegister :=
  ⟨fun o s => ⟨⟨_, rfl, loadsReg_setA o.mode.len (operandValue o s) s⟩,
      ⟨_, rfl, loadsReg_setX o.mode.len (operandValue o s) s⟩,
      ⟨_, rfl, loadsReg_setY o.mode.len (operandValue o s) s⟩⟩,
    opcodesAre_of_perm (fun _ => rfl) (by decide), opcodesAre_of_perm (fun _ => rfl) (by decide),
    opcodesAre_of_perm (fun _ => rfl) (by decide)⟩

end Sys2Proof.Proofs
end

section
/-! PROOFS (45_group10_00). The shifts and rotates (R150 to R153), DEC and INC (R156, R157) as one read-modify-write,
BIT (R158), and the opcode rows of each. -/

open Sys2Proof Sys2Proof.Machine Sys2Proof.Claims

namespace Sys2Proof.Machine

/-! ## Shifts and rotates on numbers -/

theorem getLsbD_eq_decide_toNat (m : Byte) (i : Nat) : m.getLsbD i = decide (m.toNat / 2 ^ i % 2 = 1) :=
  Nat.testBit_eq_decide_div_mod_eq

/-- The carry out of ASL and ROL as a quotient. -/
theorem getLsbD_seven_eq_div (m : Byte) : m.getLsbD 7 = decide (m.toNat / 128 = 1) := by
  rw [getLsbD_seven, decide_eq_decide]
  omega

/-- The carry out of LSR and ROR as a remainder. -/
theorem getLsbD_zero_eq_mod (m : Byte) : m.getLsbD 0 = decide (m.toNat % 2 = 1) := by
  rw [getLsbD_eq_decide_toNat, pow_zero, Nat.div_one]

theorem shiftAsl_r (m : Byte) : (shiftAsl m).r = BitVec.ofNat 8 (2 * m.toNat) := by
  apply BitVec.eq_of_toNat_eq
  simp only [shiftAsl, BitVec.toNat_shiftLeft, BitVec.toNat_ofNat, Nat.shiftLeft_eq]
  omega

theorem shiftLsr_r (m : Byte) : (shiftLsr m).r = BitVec.ofNat 8 (m.toNat / 2) := by
  apply BitVec.eq_of_toNat_eq
  simp only [shiftLsr, BitVec.toNat_ushiftRight, BitVec.toNat_ofNat, Nat.shiftRight_eq_div_pow]
  omega

theorem toNat_setWidth_ofBool (c : Bool) : ((BitVec.ofBool c).setWidth 8).toNat = c.toNat := by
  cases c <;> rfl

/-- Bit 0, empty after the shift, takes the old carry: the disjunction is a sum. -/
theorem shiftRol_r (m : Byte) (c : Bool) : (shiftRol m c).r = BitVec.ofNat 8 (2 * m.toNat + c.toNat) := by
  have hc := Bool.toNat_le c
  have hshift : (m <<< 1).toNat = 2 ^ 1 * (m.toNat % 128) := by
    rw [BitVec.toNat_shiftLeft, Nat.shiftLeft_eq]
    omega
  apply BitVec.eq_of_toNat_eq
  rw [shiftRol, BitVec.toNat_or, hshift, toNat_setWidth_ofBool, ← Nat.two_pow_add_eq_or_of_lt (by omega),
    BitVec.toNat_ofNat]
  omega

/-- Bit 7, empty after the shift, takes the old carry: the disjunction is a sum. -/
theorem shiftRor_r (m : Byte) (c : Bool) : (shiftRor m c).r = BitVec.ofNat 8 (m.toNat / 2 + 128 * c.toNat) := by
  have hc := Bool.toNat_le c
  have hm := m.isLt
  have hcarry : ((BitVec.ofBool c).setWidth 8 <<< 7 : Byte).toNat = 2 ^ 7 * c.toNat := by
    rw [BitVec.toNat_shiftLeft, toNat_setWidth_ofBool, Nat.shiftLeft_eq]
    omega
  have hshift : (m >>> 1).toNat = m.toNat / 2 := BitVec.toNat_ushiftRight ..
  apply BitVec.eq_of_toNat_eq
  rw [shiftRor, BitVec.toNat_or, hcarry, hshift, Nat.or_comm, ← Nat.two_pow_add_eq_or_of_lt (by omega),
    BitVec.toNat_ofNat]
  omega

/-! ## Read-modify-write -/

/-- The port of A sets Z and N again, to the values an operation has just set from the same byte. -/
theorem setZN_setZN (r p : Byte) : setZN r (setZN r p) = setZN r p := by
  apply eq_of_getFlag
  intro f
  simp only [getFlag_setZN]
  split_ifs <;> rfl

/-- A read-modify-write with result `r m c` and flags `f m c` is one in the sense of the claims, when its result is the
claim's, the port of A changes no flag after `f`, and a P that `f` gives has the flags the claim asks for (R82). -/
theorem modifyIs_of_exec {mk : Operand → Instr} {res : Nat → Nat → Nat} {flags : List Flag}
    {carry : Nat → State → Prop} {r : Byte → Bool → Byte} {f : Byte → Bool → Byte → Byte}
    (hexec : ∀ o s, exec (mk o) s = modifyOp o (r · (getFlag .C s.p)) (f · (getFlag .C s.p)) s)
    (hres : ∀ m c, r m c = BitVec.ofNat 8 (res m.toNat c.toNat))
    (hport : ∀ m c p, setZN (r m c) (f m c p) = f m c p)
    (hflags : ∀ m c (s t : State), t.p = f m c s.p → carry m.toNat t ∧ ZNOf (r m c) t ∧ FlagsKept flags s t) :
    ModifyIs mk res flags carry := by
  intro o s
  have hcommon (t : State) (hp : t.p = f (operandValue o s) (getFlag .C s.p) s.p)
      (hpc : t.pc = (s.advance o.mode.len).pc) : carry (operandValue o s).toNat t ∧
      ZNOf (r (operandValue o s) (getFlag .C s.p)) t ∧ FlagsKept flags s t ∧ PcPast o.mode.len s t := by
    obtain ⟨hcarry, hZN, hkept⟩ := hflags _ _ s t hp
    exact ⟨hcarry, hZN, hkept, (congrArg BitVec.toNat hpc).trans (pcPast_advance _ s)⟩
  simp only [Gives, hexec, modifyOp, ← hres]
  refine ⟨fun hl => ?acc, fun a hl ha => ?ram, fun a hl ha => ?rom, fun i hl => ?const⟩ <;> rw [hl]
  case acc =>
    refine ⟨_, rfl, hcommon _ (hport _ _ _) rfl, rfl, fun q hq => ?_, fun _ => rfl⟩
    rw [getReg_setA, if_neg (by simpa using hq)]
    cases q <;> rfl
  case ram =>
    exact ⟨_, memWrite_of_lt _ _ ha, hcommon _ rfl rfl, memStored_ramWrite ha _ _, fun q _ => by cases q <;> rfl⟩
  case rom => exact memWrite_of_ge _ _ ha
  case const => rfl

/-- A read-modify-write whose result and flags come from a shift core. -/
theorem modifyIs_of_shift {mk : Operand → Instr} {res : Nat → Nat → Nat} {out : Nat → Nat}
    {sh : Byte → Bool → ShiftOut}
    (hexec : ∀ o s, exec (mk o) s =
      modifyOp o (fun m => (sh m (getFlag .C s.p)).r) (fun m => setShift (sh m (getFlag .C s.p))) s)
    (hres : ∀ m c, (sh m c).r = BitVec.ofNat 8 (res m.toNat c.toNat))
    (hout : ∀ m c, (sh m c).c = decide (out m.toNat = 1)) :
    ModifyIs mk res [.C, .Z, .N] (CarryIs out) := by
  refine modifyIs_of_exec (r := fun m c => (sh m c).r) (f := fun m c => setShift (sh m c)) hexec hres
    (fun m c p => setZN_setZN _ _) fun m c s t ht => ⟨?_, znOf_of_setZN ht, ?_⟩
  · rw [CarryIs, ht, getFlag_setShift, if_pos rfl, hout]
  · intro g hg
    simp only [List.mem_cons, List.not_mem_nil, or_false, not_or] at hg
    obtain ⟨hC, hZ, hN⟩ := hg
    rw [ht, getFlag_setShift, if_neg hC, if_neg hZ, if_neg hN]

/-- A read-modify-write that takes Z and N from its result and writes no other flag. -/
theorem modifyIs_of_setZN {mk : Operand → Instr} {res : Nat → Nat → Nat} {r : Byte → Byte}
    (hexec : ∀ o s, exec (mk o) s = modifyOp o r (fun m => setZN (r m)) s)
    (hres : ∀ (m : Byte) (c : Bool), r m = BitVec.ofNat 8 (res m.toNat c.toNat)) :
    ModifyIs mk res [.Z, .N] (fun _ _ => True) :=
  modifyIs_of_exec (r := fun m _ => r m) (f := fun m _ => setZN (r m)) hexec hres (fun m _ p => setZN_setZN (r m) p)
    fun m _ s t ht => ⟨trivial, znOf_of_setZN ht, fun _ hg => by rw [ht, getFlag_setZN_of_notMem _ _ hg]⟩

/-! ## BIT -/

theorem exec_bit (o : Operand) (s : State) :
    exec (.bit o) s = .next ((s.advance o.mode.len).updP (setBit s.a (operandValue o s))) := rfl

/-- The flags of BIT on numbers: Z from the conjunction, N and V from the operand (R158). -/
theorem flags_of_setBit {a m p : Byte} {t : State} (h : t.p = setBit a m p) :
    getFlag .Z t.p = decide ((a &&& m).toNat = 0) ∧ getFlag .N t.p = decide (128 ≤ m.toNat) ∧
    getFlag .V t.p = decide (m.toNat / 64 % 2 = 1) := by
  rw [h, getFlag_setBit, getFlag_setBit, getFlag_setBit]
  exact ⟨Bool.eq_iff_iff.mpr (by simp [← BitVec.toNat_inj]), getLsbD_seven m, getLsbD_eq_decide_toNat m 6⟩

end Sys2Proof.Machine

namespace Sys2Proof.Proofs

/-- Settles O34: the four are one shape, each with its core. -/
theorem shiftsAndRotatesModifyTheirLocation : Obligations.ShiftsAndRotatesModifyTheirLocation :=
  ⟨modifyIs_of_shift exec_asl (fun m _ => shiftAsl_r m) fun m _ => getLsbD_seven_eq_div m,
    modifyIs_of_shift exec_rol shiftRol_r fun m _ => getLsbD_seven_eq_div m,
    modifyIs_of_shift exec_lsr (fun m _ => shiftLsr_r m) fun m _ => getLsbD_zero_eq_mod m,
    modifyIs_of_shift exec_ror shiftRor_r fun m _ => getLsbD_zero_eq_mod m,
    opcodesAre_of_perm (fun _ => rfl) (by decide), opcodesAre_of_perm (fun _ => rfl) (by decide),
    opcodesAre_of_perm (fun _ => rfl) (by decide), opcodesAre_of_perm (fun _ => rfl) (by decide)⟩

/-- Settles O35: both are one shape, counting down and up. -/
theorem decIncModifyMemory : Obligations.DecIncModifyMemory :=
  ⟨modifyIs_of_setZN exec_dec fun m _ => sub_one_eq_ofNat m, modifyIs_of_setZN exec_inc fun m _ => add_one_eq_ofNat m,
    opcodesAre_of_perm (fun _ => rfl) (by decide), opcodesAre_of_perm (fun _ => rfl) (by decide)⟩

/-- Settles O36: the three flags of the BIT core, and nothing else written. -/
theorem bitTestsTheOperand : Obligations.BitTestsTheOperand := by
  refine ⟨fun o s => ?_, opcodesAre_of_perm (fun _ => rfl) (by decide)⟩
  have hwrites : PlainWrites [] [.Z, .N, .V] s
      ((s.advance o.mode.len).updP (setBit s.a (operandValue o s))) :=
    .setBit (List.Subset.refl _) _ _ (.advance _ .refl)
  obtain ⟨hZ, hN, hV⟩ := flags_of_setBit (State.updP_p (s.advance o.mode.len) (setBit s.a (operandValue o s)))
  exact ⟨_, exec_bit o s, hZ, hN, hV, pcPast_advance _ s, hwrites.regsKept, hwrites.flagsKept, fun _ => rfl⟩

end Sys2Proof.Proofs
end

section
/-! PROOFS (46_group11). The no-op tags ANC, ALR, ARR, LAS, AXS and SBC of group 11 (R165 to R171) and the opcode rows
of each. -/

open Sys2Proof Sys2Proof.Machine Sys2Proof.Claims

namespace Sys2Proof.Machine

/-- An instruction that runs as the common no-op of the tags and takes its count from the table ignores its operand. -/
theorem ignoresOperand_of_exec {mk : Operand → Instr} (hexec : ∀ o s, exec (mk o) s = ignoreOp o s)
    (hcycles : ∀ o s, cyclesOf (mk o) s = cycleTable (mk o).opcode) : IgnoresOperand mk :=
  fun o s => ⟨⟨s.advance o.mode.len, hexec o s, onlyFlags_advance o.mode.len s⟩, hcycles o s⟩

/-- A table is the rows of an instruction that carries its opcode byte when it says which forms are well-formed: every
decoded instruction is well-formed, and every well-formed one is decoded from its own bytes. -/
theorem decodesAre_of_wellFormed {mk : Byte → Operand → Instr} {table : List (Byte × Mode)}
    (hwf : ∀ op o, (mk op o).WellFormed = table.contains (op, o.mode)) (hopcode : ∀ op o, (mk op o).opcode = op)
    (hmodes : ∀ r ∈ table, ∃ z ∈ zeroOperands, z.mode = r.2) : DecodesAre mk table := by
  intro op m
  constructor
  · intro hrow
    obtain ⟨o, -, rfl⟩ := hmodes _ hrow
    have hform : (mk op o).WellFormed = true := (hwf op o).trans (List.contains_iff_mem.mpr hrow)
    obtain ⟨b1, b2, hself⟩ := (mk op o).exists_refill_self
    have hdecode := decodeInstr_opcode hform b1 b2
    rw [hopcode, hself] at hdecode
    exact ⟨b1, b2, o, rfl, hdecode⟩
  · rintro ⟨b1, b2, o, rfl, hdecode⟩
    have hform := wellFormed_decodeInstr op b1 b2
    rw [hdecode, hwf] at hform
    exact List.contains_iff_mem.mp hform

end Sys2Proof.Machine

namespace Sys2Proof.Proofs

/-- Settles O44: the six are one shape. The rows of ANC and LAS, which carry their opcode byte, are the tables of
well-formedness; those of the other four come from their forms. -/
theorem group11TagsOnlyAdvancePC : Obligations.Group11TagsOnlyAdvancePC := by
  refine ⟨fun op => ⟨?_, ?_⟩, ?_, ?_, ?_, ?_, ?anc, ?las, ?alr, ?arr, ?axs, ?sbc⟩
  case anc | las => exact decodesAre_of_wellFormed (fun _ _ => rfl) (fun _ _ => rfl) (by decide)
  case alr | arr | axs | sbc => exact opcodesAre_of_perm (fun _ => rfl) (by decide)
  all_goals exact ignoresOperand_of_exec (fun _ _ => rfl) fun _ _ => rfl

end Sys2Proof.Proofs
end

section
/-! PROOFS (60_exceptions). The cycle count is output only: the timed step ends as the step does (R186, R200). -/

open Sys2Proof Sys2Proof.Machine Sys2Proof.Claims

namespace Sys2Proof.Machine

/-- A timed step raises the faults of the step (R76, R200). -/
theorem stepTimedWith_eq_fault_iff (table : Byte → Nat) (gap : Nat) (s : State) (f : Fault) :
    stepTimedWith table gap s = .fault f ↔ step s = .fault f := by
  unfold stepTimedWith
  cases step s <;> simp

end Sys2Proof.Machine

namespace Sys2Proof.Proofs

/-- Settles O58: a completing step and its timed step leave one state, whose count is the only thing added. -/
theorem cycleCountsAreOutputOnly : Obligations.CycleCountsAreOutputOnly := by
  refine fun table gap s => ⟨fun t => ?_, fun f => (stepTimedWith_eq_fault_iff table gap s f).symm⟩
  simp only [stepTimedWith_eq_next_iff, exists_and_left, exists_eq, and_true]

end Sys2Proof.Proofs
end

section
/-! PROOFS (70_reset_and_hazards). What construction puts into each piece of state (R191). -/

open Sys2Proof Sys2Proof.Machine Sys2Proof.Claims

namespace Sys2Proof.Machine

/-- A byte stored whole into P keeps every flag but U, which becomes 1 (R22). -/
theorem getFlag_statusValue (f : Flag) (v : Byte) : getFlag f (statusValue v) = (getFlag f v || f == .U) := by
  cases f <;> simp [getFlag, statusValue, unusedMask, Flag.bit]

/-- Below the PRG-ROM window the router reads RAM (R38). -/
theorem memRead_below_window {k : Nat} (hk : k < 0x8000) (s : State) :
    memRead (BitVec.ofNat 16 k) s = Memory.read s.ram k := by
  have ha : (BitVec.ofNat 16 k).toNat = k := by rw [BitVec.toNat_ofNat, Nat.mod_eq_of_lt (by omega)]
  have hlow : ¬romBase ≤ k := Nat.not_le.mpr hk
  rw [memRead, ha, if_neg hlow]

/-- The reset vector is the little-endian word at 0xFFFC and 0xFFFD (R44). -/
theorem toNat_read16_resetVector (s : State) :
    (read16 resetVector s).toNat = byteAt 0xFFFC s + 256 * byteAt 0xFFFD s := toNat_word _ _

/-- The empty image is the only one refused (R177). -/
theorem construct_eq_error_iff {q : Config.Params} {r : Refusal} :
    construct q = .error r ↔ q.prg.length = 0 ∧ r = .emptyImage := by
  by_cases hlen : q.prg.length = 0
  · simp [construct_of_length_zero hlen, hlen, eq_comm]
  · simp [construct, hlen]

/-- The fields of a constructed state beside the image, which `image_of_construct` gives (R191). -/
theorem fields_of_construct {q : Config.Params} {s : State} (h : construct q = .ok s) :
    (s.a = q.a0 ∧ s.x = q.x0 ∧ s.y = q.y0 ∧ s.sp = q.sp0 ∧ s.trace = q.trace) ∧ s.p = statusValue q.p0 ∧
    s.ram = Memory.ofBytes 0 q.ramInit.toList ∧ s.pc = q.pc0.getD (read16 resetVector s) := by
  unfold construct at h
  split at h
  · cases h
  · cases h
    exact ⟨⟨rfl, rfl, rfl, rfl, rfl⟩, rfl, rfl, rfl⟩

/-- Every RAM address reads its byte of `RAM_INIT` (R191). -/
theorem memRead_of_construct {q : Config.Params} {s : State} (h : construct q = .ok s) {k : Nat} (hk : k < 0x8000) :
    memRead (BitVec.ofNat 16 k) s = q.ramInit[k] := by
  obtain ⟨-, -, hram, -⟩ := fields_of_construct h
  have hread := Memory.read_ofBytes 0 k q.ramInit.toList
  rw [Nat.zero_add] at hread
  rw [memRead_below_window hk, hram, hread, List.getD_eq_getElem _ _ (by simpa using hk), Vector.getElem_toList]

/-- PC is `PC0` where it is given, else the reset vector (R191). -/
theorem pc_of_construct {q : Config.Params} {s : State} (h : construct q = .ok s) :
    s.pc.toNat = (q.pc0.map BitVec.toNat).getD (byteAt 0xFFFC s + 256 * byteAt 0xFFFD s) := by
  obtain ⟨-, -, -, hpc⟩ := fields_of_construct h
  rw [hpc, ← toNat_read16_resetVector]
  cases q.pc0 <;> rfl

end Sys2Proof.Machine

namespace Sys2Proof.Proofs

/-- Settles O12, field by field; the mirrored image is the constructed part of O19. -/
theorem constructionMakesTheWholeState : Obligations.ConstructionMakesTheWholeState := by
  refine ⟨fun q r => construct_eq_error_iff, fun q s hq => ?_⟩
  obtain ⟨⟨ha, hx, hy, hsp, htrace⟩, hp, -, -⟩ := fields_of_construct hq
  obtain ⟨-, hlen⟩ := image_of_construct hq
  obtain ⟨-, hwindow, -⟩ := prgRomMirrorsTheImage
  exact ⟨ha, hx, hy, hsp, htrace, fun f => by rw [hp, getFlag_statusValue], hlen,
    fun _ hk => memRead_of_construct hq hk, fun k hk => hwindow q s k hq hk, pc_of_construct hq⟩

end Sys2Proof.Proofs
end
